-- ==== Sys2Proof/Word.lean ====
section
/-! DEFINITION. The one word type of the block: every cell, register, immediate, module id and register id is a byte
(spec/20_memory.md R57, spec/00_scope.md R6, R7). -/

namespace Sys2Proof

/-- A byte: bits 7..0, bit 0 the least significant (R7), read as an unsigned integer 0..255 (R8). -/
abbrev Byte := BitVec 8

end Sys2Proof
end

