-- ==== Sys2Proof/Syntax.lean ====
section
/-! DEFINITION. The instructions: one constructor for each row of spec/opcode_table.json (spec/30_encoding.md R71,
R73), and the module declaration (R76). -/

namespace Sys2Proof

/-- An instruction as the engine reads it. Operand bytes are kept as given: a register operand is a byte that need not
name a register (R72, R109). -/
inductive Instr where
  /-- `NOP`, format N (R105). -/
  | nop
  /-- `MOVE reg, imm8`, format RI (R106). -/
  | move (reg imm : Byte)
  /-- `ADD dst, src`, format RR (R107). -/
  | add (dst src : Byte)
  /-- `START mid`, format M (R110). -/
  | start (mid : Byte)
  /-- `RET`, format N (R112). -/
  | ret
  /-- `HALT`, format N (R114). -/
  | halt
  /-- A `MODULE` byte fetched as an opcode: it reads no operand (R95, R115, R116). -/
  | moduleMark
  /-- `RUN`, reserved (R120). -/
  | run
  /-- `CID`, reserved (R121). -/
  | cid
  /-- `LD`, reserved (R122). -/
  | ld
  /-- `LDC`, reserved (R123). -/
  | ldc
  /-- `OUT`, reserved (R124). -/
  | out
  deriving DecidableEq, Repr

/-- How many bytes the engine reads for an instruction (R71). MODULE and the reserved opcodes have no length of this
kind: the engine reads their opcode byte only (R94, R95). -/
def Instr.length : Instr → Nat
  | .nop => 1
  | .move _ _ => 3
  | .add _ _ => 3
  | .start _ => 2
  | .ret => 1
  | .halt => 1
  | .moduleMark => 1
  | .run => 1
  | .cid => 1
  | .ld => 1
  | .ldc => 1
  | .out => 1

/-- A module declaration `MODULE mid body RET` of the root image (R14, R76); the terminator is not part of `body`. -/
structure Declaration where
  mid : Byte
  body : List Instr
  deriving DecidableEq, Repr

end Sys2Proof
end

