-- ==== Sys2Proof/WellFormed.lean ====
section
/-! DEFINITION. Which instructions and declarations a program may hold without faulting on its own text. The encoding
admits every operand byte (spec/30_encoding.md R72): `decode` and `exec` take ill-formed instructions too. -/

namespace Sys2Proof

/-- The byte names one of the four registers (spec/10_state.md R21, R22). -/
def regByteOk (b : Byte) : Bool := decide (1 ≤ b.toNat) && decide (b.toNat ≤ 4)

/-- Every register operand names a register: R79 writes a register operand AX, BX, CX or DX. -/
def Instr.wellFormed : Instr → Bool
  | .nop => true
  | .move reg _ => regByteOk reg
  | .add dst src => regByteOk dst && regByteOk src
  | .start _ => true
  | .ret => true
  | .halt => true
  | .moduleMark => true
  | .run => true
  | .cid => true
  | .ld => true
  | .ldc => true
  | .out => true

/-- The instruction may stand in a body: no nested MODULE marker (R76, D15), no RET, which would end the body, and no
operand byte 0x13, which would end it too (R82, spec/70_reset_and_hazards.md R176). -/
def Instr.bodyOk : Instr → Bool
  | .nop => true
  | .move reg imm => decide (reg ≠ 0x13#8) && decide (imm ≠ 0x13#8)
  | .add dst src => decide (dst ≠ 0x13#8) && decide (src ≠ 0x13#8)
  | .start mid => decide (mid ≠ 0x13#8)
  | .ret => false
  | .halt => true
  | .moduleMark => false
  | .run => true
  | .cid => true
  | .ld => true
  | .ldc => true
  | .out => true

/-- A declaration whose body is well formed and ends only at its terminator (R76, R176). -/
def Declaration.wellFormed (d : Declaration) : Bool := d.body.all fun i => i.wellFormed && i.bodyOk

end Sys2Proof
end

