-- ==== Sys2Proof/Decode.lean ====
section
/-! DEFINITION. The opcode map, the decoder and the encoder (spec/30_encoding.md R70 to R78, R80). -/

namespace Sys2Proof

/-! ### The opcode bytes of R73 (all but NOP are the spec's own choice, D1; log entry 5) -/

def opNop : Byte := 0x00#8
def opMove : Byte := 0x10#8
def opAdd : Byte := 0x11#8
def opStart : Byte := 0x12#8
def opRet : Byte := 0x13#8
def opHalt : Byte := 0x14#8
def opModule : Byte := 0x15#8
def opRun : Byte := 0x16#8
def opCid : Byte := 0x17#8
def opLd : Byte := 0x18#8
def opLdc : Byte := 0x19#8
def opOut : Byte := 0x1A#8

/-- The opcode byte of an instruction (R73). -/
def Instr.opcode : Instr → Byte
  | .nop => opNop
  | .move _ _ => opMove
  | .add _ _ => opAdd
  | .start _ => opStart
  | .ret => opRet
  | .halt => opHalt
  | .moduleMark => opModule
  | .run => opRun
  | .cid => opCid
  | .ld => opLd
  | .ldc => opLdc
  | .out => opOut

/-- What decoding some bytes gives. -/
inductive Decoded where
  /-- An instruction, and the bytes after it. -/
  | instr (i : Instr) (rest : List Byte)
  /-- Byte `n` of the instruction (0 is the opcode) is not there (R93, R95). -/
  | missing (n : Nat)
  /-- The first byte is in the illegal row of R73. -/
  | illegal (b0 : Byte)
  deriving DecidableEq, Repr

/-- One operand byte after the opcode (format M). -/
def operand1 (f : Byte → Instr) : List Byte → Decoded
  | [] => .missing 1
  | b1 :: rest => .instr (f b1) rest

/-- Two operand bytes after the opcode (formats RI and RR), the lower address first (R95). -/
def operand2 (f : Byte → Byte → Instr) : List Byte → Decoded
  | [] => .missing 1
  | [_] => .missing 2
  | b1 :: b2 :: rest => .instr (f b1 b2) rest

/-- The decoder: total on every byte, by byte 0 alone; operand bytes are read after it (R74, R94, R95). -/
def decode : List Byte → Decoded
  | [] => .missing 0
  | b0 :: rest =>
    if b0 = opNop then .instr .nop rest
    else if b0 = opMove then operand2 .move rest
    else if b0 = opAdd then operand2 .add rest
    else if b0 = opStart then operand1 .start rest
    else if b0 = opRet then .instr .ret rest
    else if b0 = opHalt then .instr .halt rest
    else if b0 = opModule then .instr .moduleMark rest
    else if b0 = opRun then .instr .run rest
    else if b0 = opCid then .instr .cid rest
    else if b0 = opLd then .instr .ld rest
    else if b0 = opLdc then .instr .ldc rest
    else if b0 = opOut then .instr .out rest
    else .illegal b0

/-- The bytes of an instruction, opcode first, operands in operand order (R71, R80). -/
def encode : Instr → List Byte
  | .nop => [opNop]
  | .move reg imm => [opMove, reg, imm]
  | .add dst src => [opAdd, dst, src]
  | .start mid => [opStart, mid]
  | .ret => [opRet]
  | .halt => [opHalt]
  | .moduleMark => [opModule]
  | .run => [opRun]
  | .cid => [opCid]
  | .ld => [opLd]
  | .ldc => [opLdc]
  | .out => [opOut]

/-- The bytes of a declaration: 0x15, the id, the body, 0x13 (R76, R80). -/
def Declaration.encode (d : Declaration) : List Byte :=
  opModule :: d.mid :: (d.body.flatMap Sys2Proof.encode ++ [opRet])

/-- Byte `k` of a number laid out with the first byte least significant. -/
def tableByte (v k : Nat) : Byte := BitVec.ofNat 8 (v / 256 ^ k)

/-- The first three bytes (the longest operand-carrying instruction, R71) of a table word of `nbits` bits, zeros
above it. -/
def tableBytes (nbits w : Nat) : List Byte :=
  let v := w % 2 ^ nbits
  [tableByte v 0, tableByte v 1, tableByte v 2]

/-- The instruction the decoder reads from a word numbered as spec/opcode_table.json numbers it. -/
def decodeTableWord (nbits w : Nat) : Option Instr :=
  match decode (tableBytes nbits w) with
  | .instr i _ => some i
  | .missing _ => none
  | .illegal _ => none

end Sys2Proof
end

