-- ==== Sys2Proof/Config.lean ====
section
/-! DEFINITION. What an implementation fixes: the two OPEN parameters of spec/00_scope.md R6, as `State.reset` takes
them. A state carries its own copy (`State.params`), so a statement about every state holds for every value of them. -/

namespace Sys2Proof

/-- One less than the call-stack bound `State.reset` carries. It has no body: R6 leaves MAX_DEPTH open, "an integer
>= 1", so nothing can be proved of this number. DESIGN CHOICE, log entry 1: safe. -/
opaque Config.maxDepthLessOne : Nat

/-- MAX_DEPTH of `State.reset`: some integer >= 1 (R6, R38, D7). -/
def Config.maxDepth : Nat := Config.maxDepthLessOne + 1

/-- STEP_BUDGET of `State.reset`: the spec's default, `none` (R6, D21). -/
def Config.stepBudget : Option Nat := none

end Sys2Proof
end

