-- ==== Sys2Proof/Machine/State.lean ====
section
/-! DEFINITION. The architectural state (spec/10_state.md R20 to R49) as plain data, the reasons a step can stop, and
the state after reset (R45, spec/70_reset_and_hazards.md R160). -/

namespace Sys2Proof.Machine

open Sys2Proof

/-- The four general registers (R21). -/
structure Regs where
  ax : Byte
  bx : Byte
  cx : Byte
  dx : Byte
  deriving DecidableEq, Repr

/-- All four registers zero: the register file's `reset()` (R24, R26). -/
def Regs.zero : Regs := ⟨0#8, 0#8, 0#8, 0#8⟩

/-- A context: the root, or module `m` (R31, spec/00_scope.md R12). It also names a byte space: ROOT, or PRIV[m]
(spec/20_memory.md R50, R53). -/
inductive Ctx where
  | root
  | mod (m : Byte)
  deriving DecidableEq, Repr

/-- One 256-byte space (spec/20_memory.md R50) as the list of its (address, byte) pairs. The canonical form is
`Memory.wf`: addresses rising and below 256, no listed 0x00. -/
abbrev Memory := List Host.Cell

/-- The `caller` field (R36). -/
structure Caller where
  isRoot : Bool
  mid : Byte
  deriving DecidableEq, Repr

/-- The root sentinel (R36). -/
def Caller.sentinel : Caller := ⟨true, 0#8⟩

/-- A Module Table record (R34). -/
structure ModuleRecord where
  id : Byte
  occupied : Bool
  privateMemory : Memory
  registerCache : Regs
  caller : Caller
  entry : Bool
  entryLocation : Nat
  bodyStart : Nat
  deriving DecidableEq, Repr

/-- An empty slot: the reset record (R45, D19). -/
def ModuleRecord.empty : ModuleRecord :=
  { id := 0#8, occupied := false, privateMemory := [], registerCache := Regs.zero, caller := Caller.sentinel,
    entry := false, entryLocation := 0, bodyStart := 0 }

/-- The 256 slots of the Module Table (R33) as a list of (id, record) pairs; an unlisted slot is empty. The canonical
form is `ModuleTable.wf`. -/
abbrev ModuleTable := List (Nat × ModuleRecord)

/-- A frame of the call stack (R38). -/
structure Frame where
  retPc : Nat
  retCtx : Ctx
  saved : Regs
  deriving DecidableEq, Repr

/-- The status register (R40). -/
inductive Status where
  | idle
  | running
  | done
  | halted
  | faulted
  | cancelled
  deriving DecidableEq, Repr

/-- The seven fault kinds (spec/60_exceptions.md R130). -/
inductive FaultKind where
  | outOfBounds
  | invalidRegister
  | unknownModule
  | duplicateModule
  | malformedModule
  | callStackExhausted
  | unknownOpcode
  deriving DecidableEq, Repr

/-- The fault record (R41); `kind = none` is code 0. -/
structure FaultRecord where
  kind : Option FaultKind
  pc : Nat
  ctx : Ctx
  info : Nat
  deriving DecidableEq, Repr

/-- The reset value of the fault record (R45). -/
def FaultRecord.clear : FaultRecord := ⟨none, 0, .root, 0⟩

/-- The OPEN parameters (R44, spec/00_scope.md R6). They are not state of the block: no step writes them. The model
carries them here so that every statement holds for every value of them (log entry 1). -/
structure Params where
  maxDepth : Nat
  stepBudget : Option Nat
  deriving DecidableEq, Repr

/-- Everything the block holds (R20), and the parameters. -/
structure State where
  /-- The register file X (R21). -/
  regs : Regs
  /-- The program counter, 0..256 (R27, R28). -/
  pc : Nat
  /-- The current context (R31). -/
  cur : Ctx
  /-- ROOT (R43, R50). -/
  root : Memory
  /-- The Module Table, with the private memories (R33, R34). -/
  mt : ModuleTable
  /-- The call stack CS, the top frame first (R38). -/
  cs : List Frame
  /-- The status register (R40). -/
  status : Status
  /-- The fault record (R41). -/
  fault : FaultRecord
  /-- Completed steps of the run (R42). -/
  steps : Nat
  /-- MAX_DEPTH and STEP_BUDGET (R44). -/
  params : Params
  deriving DecidableEq, Repr

/-- Why the model has no next state. The seven faults of the spec are NOT here: raising one is a next state with the
status FAULTED (spec/60_exceptions.md R134). -/
inductive Fault where
  /-- Raised by `step` when the status is not RUNNING: "the engine has no step" (spec/40_cycle.md R90). Safe. -/
  | notRunning (st : Status)
  /-- Raised by RET in a module context when the call stack is empty. R39 says no run reaches such a state, and the
  spec gives the RET no frame to return to (log entry 3). Safe. -/
  | callStackEmpty
  deriving DecidableEq, Repr

/-- What the model turns away. -/
inductive Refusal where
  /-- An arm of `exec` whose instruction has no meaning yet. No arm answers with it. Safe. -/
  | notModelled (mnemonic : String)
  /-- Raised by `State.loadImage` when the status is not IDLE: LoadImage requires IDLE (spec/60_exceptions.md R150,
  spec/70_reset_and_hazards.md R161). Safe. -/
  | loadNotIdle
  /-- Raised by `State.loadImage` for an image that is not exactly 256 bytes: "The block accepts no other length"
  (R152). Safe. -/
  | imageLength
  /-- Raised by the host's Run action when the status is not RUNNING (R150). Safe. -/
  | runNotRunning
  deriving DecidableEq, Repr

/-- The state after reset for given parameters: every piece of state at its "after reset" value (R45, R160). -/
def State.resetWith (p : Params) : State :=
  { regs := Regs.zero, pc := 0, cur := .root, root := [], mt := [], cs := [], status := .idle,
    fault := FaultRecord.clear, steps := 0, params := p }

/-- The state after reset, with MAX_DEPTH left open and the default STEP_BUDGET (log entries 1 and 2). -/
def State.reset : State := State.resetWith ⟨Config.maxDepth, Config.stepBudget⟩

end Sys2Proof.Machine
end

