-- ==== Sys2Proof/Machine/Ops.lean ====
section
/-! DEFINITION. The named operations over the memories, the Module Table, the registers and the state; the fault entry
(spec/60_exceptions.md R134) and the call and return context switches (spec/42_control.md R110, R112). -/

namespace Sys2Proof.Machine

open Sys2Proof

/-! ### Sparse lists: one canonical form for memories and the Module Table

A list of (key, value) pairs stands for a function from keys to values; an unlisted key has the value `d`. -/

section
variable {α : Type} [DecidableEq α]

/-- The value at a key. -/
def Sparse.get (d : α) : List (Nat × α) → Nat → α
  | [], _ => d
  | (k, v) :: t, a => if k = a then v else Sparse.get d t a

/-- Every entry but those of one key. -/
def Sparse.erase (t : List (Nat × α)) (a : Nat) : List (Nat × α) := t.filter fun c => decide (c.1 ≠ a)

/-- One more entry, before the first greater key. -/
def Sparse.insert (a : Nat) (v : α) : List (Nat × α) → List (Nat × α)
  | [] => [(a, v)]
  | (k, w) :: t => if a < k then (a, v) :: (k, w) :: t else (k, w) :: Sparse.insert a v t

/-- Write a key: the entry goes away when the value is the unlisted one. -/
def Sparse.set (d : α) (t : List (Nat × α)) (a : Nat) (v : α) : List (Nat × α) :=
  if v = d then Sparse.erase t a else Sparse.insert a v (Sparse.erase t a)

/-- The canonical form: keys strictly rising and below `n`, no entry equal to the unlisted value. -/
def Sparse.wf (d : α) (n : Nat) (t : List (Nat × α)) : Bool :=
  decide (t.Pairwise fun c e => c.1 < e.1) && t.all fun c => decide (c.1 < n) && decide (c.2 ≠ d)

end

/-! ### Memory (spec/20_memory.md R50 to R53) -/

/-- Cells of a space (spec/00_scope.md R6). -/
abbrev memSize : Nat := 256

/-- The byte at an address; an unlisted cell holds 0x00 (R51). -/
def Memory.get (m : Memory) (a : Nat) : Byte := Sparse.get 0#8 m a

/-- Write one cell, and no other (R52). The callers keep `a` in 0..255. -/
def Memory.set (m : Memory) (a : Nat) (v : Byte) : Memory := Sparse.set 0#8 m a v

/-- `clear()`: every cell 0x00 (R51). -/
def Memory.clear : Memory := []

/-- `read(addr)`: `none` is the OutOfBounds condition (R52). -/
def Memory.read (m : Memory) (a : Nat) : Option Byte := if a < memSize then some (m.get a) else none

/-- `write(addr, byte)`: `none` is the OutOfBounds condition (R52). -/
def Memory.write (m : Memory) (a : Nat) (v : Byte) : Option Memory := if a < memSize then some (m.set a v) else none

/-- The canonical form of a space. -/
def Memory.wf (m : Memory) : Bool := Sparse.wf 0#8 memSize m

/-- The memory that holds `bytes` from address `a` on, and 0x00 elsewhere. -/
def Memory.ofBytesAt (a : Nat) : List Byte → Memory
  | [] => []
  | b :: bs => if b = 0#8 then Memory.ofBytesAt (a + 1) bs else (a, b) :: Memory.ofBytesAt (a + 1) bs

/-- Write `bytes` at `a`, `a + 1`, …, as far as cells exist. -/
def Memory.place (m : Memory) (a : Nat) : List Byte → Memory
  | [] => m
  | b :: bs => ((m.write a b).getD m).place (a + 1) bs

/-- The least address in `a .. 255` that holds the RET opcode (R76; the search of R115 and of the Loader, R166). -/
def findRet (m : Memory) (a : Nat) : Option Nat :=
  (List.range' a (memSize - a)).find? fun t => decide (m.get t = opRet)

/-- Copy the bytes of `src` at the given addresses into `dst`, at the same addresses (R55). -/
def copyBytes (src : Memory) : List Nat → Memory → Memory
  | [], dst => dst
  | a :: as, dst => copyBytes src as (dst.set a (src.get a))

/-! ### The Module Table (spec/10_state.md R33 to R36) -/

/-- Module Table slots (spec/00_scope.md R6). -/
abbrev slotCount : Nat := 256

/-- Slot `m`; any byte is a valid slot index (R33). -/
def ModuleTable.slot (t : ModuleTable) (m : Byte) : ModuleRecord := Sparse.get ModuleRecord.empty t m.toNat

/-- Write slot `m`, and no other. -/
def ModuleTable.setSlot (t : ModuleTable) (m : Byte) (r : ModuleRecord) : ModuleTable :=
  Sparse.set ModuleRecord.empty t m.toNat r

/-- The canonical form of the table, and of every private memory in it. -/
def ModuleTable.wf (t : ModuleTable) : Bool :=
  Sparse.wf ModuleRecord.empty slotCount t && t.all fun c => c.2.privateMemory.wf

/-- The `caller` value that names a context (R36). -/
def callerOf : Ctx → Caller
  | .root => Caller.sentinel
  | .mod k => ⟨false, k⟩

/-! ### Codes (D20) -/

/-- The status codes of spec/10_state.md R40. -/
def Status.code : Status → BitVec 3
  | .idle => 0#3
  | .running => 1#3
  | .done => 2#3
  | .halted => 3#3
  | .faulted => 4#3
  | .cancelled => 5#3

/-- Terminal statuses: only reset leaves them (R40). -/
def Status.isTerminal : Status → Bool
  | .idle => false
  | .running => false
  | .done => true
  | .halted => true
  | .faulted => true
  | .cancelled => true

/-- The fault codes of spec/60_exceptions.md R130. -/
def FaultKind.code : FaultKind → BitVec 3
  | .outOfBounds => 1#3
  | .invalidRegister => 2#3
  | .unknownModule => 3#3
  | .duplicateModule => 4#3
  | .malformedModule => 5#3
  | .callStackExhausted => 6#3
  | .unknownOpcode => 7#3

/-- `fault_kind` as the record holds it: 0 means no fault (R130). -/
def FaultRecord.code (f : FaultRecord) : BitVec 3 :=
  match f.kind with
  | none => 0#3
  | some k => k.code

/-! ### Views of the state -/

/-- Slot `m` of the state's Module Table. -/
def State.slot (s : State) (m : Byte) : ModuleRecord := s.mt.slot m

/-- The space a context fetches from: ROOT, or PRIV[m] (R53). -/
def State.memory (s : State) : Ctx → Memory
  | .root => s.root
  | .mod m => (s.slot m).privateMemory

/-- `FM`, the fetch memory of the current context (R53). -/
def State.fetchMemory (s : State) : Memory := s.memory s.cur

/-- The byte at address `a` of the space of context `c`. -/
def State.readByte (s : State) (c : Ctx) (a : Nat) : Byte := (s.memory c).get a

/-- `depth`: frames on the call stack (R38). -/
def State.depth (s : State) : Nat := s.cs.length

/-- The step budget is an integer and `steps` has reached it (spec/40_cycle.md R92). -/
def State.budgetSpent (s : State) : Bool :=
  match s.params.stepBudget with
  | none => false
  | some b => decide (b ≤ s.steps)

/-! ### Updates of the state -/

/-- Fault entry, for the engine and the Loader alike (spec/60_exceptions.md R134). Nothing else changes. -/
def State.faultEntry (s : State) (k : FaultKind) (pc : Nat) (ctx : Ctx) (info : Nat) : State :=
  { s with status := .faulted, fault := ⟨some k, pc, ctx, info⟩ }

/-- `raise K(info)` in an engine step: `fault_pc` is the pc of the faulting instruction, `fault_ctx` is `cur` (R134). -/
def State.raise (s : State) (k : FaultKind) (info : Nat) : State := s.faultEntry k s.pc s.cur info

/-- The commit of a step that raised nothing counts it (spec/40_cycle.md R97). -/
def State.commit (s : State) : State := { s with steps := s.steps + 1 }

/-- `pc <- pc + n`, with no wrap (spec/00_scope.md R8, spec/10_state.md R28). -/
def State.advance (s : State) (n : Nat) : State := { s with pc := s.pc + n }

/-- `pc <- a`. -/
def State.setPc (s : State) (a : Nat) : State := { s with pc := a }

/-- `status <- st`. -/
def State.setStatus (s : State) (st : Status) : State := { s with status := st }

/-- The writes START makes in the callee's record `r`, called from context `c` with register file `x` (R110). -/
def ModuleRecord.entered (r : ModuleRecord) (c : Ctx) (x : Regs) : ModuleRecord :=
  { r with registerCache := x, caller := callerOf c, entry := true, entryLocation := r.bodyStart }

/-- The context switch of START (R110, R111): push the frame, write the callee's record, zero X, enter the module. -/
def State.enterModule (s : State) (m : Byte) : State :=
  { s with
    cs := ⟨s.pc + 2, s.cur, s.regs⟩ :: s.cs
    mt := s.mt.setSlot m ((s.slot m).entered s.cur s.regs)
    regs := Regs.zero
    cur := .mod m
    pc := (s.slot m).bodyStart }

/-- The return of RET to the popped frame `f`, with `rest` the stack below it (R112). -/
def State.returnTo (s : State) (f : Frame) (rest : List Frame) : State :=
  { s with cs := rest, regs := f.saved, cur := f.retCtx, pc := f.retPc }

/-- Cancellation by the step budget: nothing else changes (spec/40_cycle.md R92). -/
def State.cancel (s : State) : State := { s with status := .cancelled }

/-- Write `bytes` into the fetch memory from address `a` on. -/
def State.placeInFetchMemory (s : State) (a : Nat) (bytes : List Byte) : State :=
  match s.cur with
  | .root => { s with root := s.root.place a bytes }
  | .mod m =>
    { s with mt := s.mt.setSlot m { s.slot m with privateMemory := (s.slot m).privateMemory.place a bytes } }

end Sys2Proof.Machine
end

