-- ==== Sys2Proof/Machine/Control.lean ====
section
/-! DEFINITION. Control transfer and context switching: START, RET, HALT, MODULE (spec/42_control.md R110 to R117). -/

namespace Sys2Proof.Machine

open Sys2Proof

/-- START mid (R110): UnknownModule before CallStackExhausted (spec/60_exceptions.md R132). -/
def execStart (m : Byte) (s : State) : Host.Outcome State Fault Refusal :=
  if (s.slot m).occupied = false then .next (s.raise .unknownModule m.toNat)
  else if s.params.maxDepth ≤ s.depth then .next (s.raise .callStackExhausted m.toNat)
  else .next (s.enterModule m).commit

/-- RET (R112): the end of the run in the root context, the return to the top frame in a module context. The frame,
not the `caller` record, gives the target (R113, R117). -/
def execRet (s : State) : Host.Outcome State Fault Refusal :=
  match s.cur with
  | .root => .next (s.setStatus .done).commit
  | .mod _ =>
    match s.cs with
    | [] => .fault .callStackEmpty
    | f :: rest => .next (s.returnTo f rest).commit

/-- HALT (R114): the whole machine stops, in any context. -/
def execHalt (s : State) : Host.Outcome State Fault Refusal := .next (s.setStatus .halted).commit

/-- The declaration skip in the root context (`DeclSkip`, R115): MalformedModule carries the id byte, or 256 when there
is none. -/
def declSkip (s : State) : Host.Outcome State Fault Refusal :=
  match findRet s.root (s.pc + 2) with
  | some t => .next (s.setPc (t + 1)).commit
  | none => .next (s.raise .malformedModule (if s.pc ≤ 254 then (s.root.get (s.pc + 1)).toNat else 256))

/-- MODULE fetched as an opcode: the skip in the root context (R115), MalformedModule(m) in MOD(m) (R116). -/
def execModule (s : State) : Host.Outcome State Fault Refusal :=
  match s.cur with
  | .root => declSkip s
  | .mod m => .next (s.raise .malformedModule m.toNat)

end Sys2Proof.Machine
end

