-- ==== Sys2Proof/Machine/Flags.lean ====
section
/-! DEFINITION. The arithmetic of the block. There are no flags, condition codes or predicates, and ADD records no carry
(spec/10_state.md R32, spec/41_data.md R107), so no flag is computed here. -/

namespace Sys2Proof.Machine

open Sys2Proof

/-- ADD's sum: the low 8 bits of the true sum of the two unsigned bytes (R107, R108). -/
def addByte (a b : Byte) : Byte := BitVec.ofNat 8 ((a.toNat + b.toNat) % 256)

end Sys2Proof.Machine
end

