-- ==== Sys2Proof/Machine/Operands.lean ====
section
/-! DEFINITION. The operand forms (spec/30_encoding.md R72): register identifier bytes and the register file they select
(spec/10_state.md R21 to R24). An immediate and a module id are bytes used as given and need no operation. -/

namespace Sys2Proof.Machine

open Sys2Proof

/-- The four registers (R21). -/
inductive Reg where
  | ax
  | bx
  | cx
  | dx
  deriving DecidableEq, Repr

/-- The register a byte names, compared as a whole byte, never masked (R22, R109). -/
def regOfByte (b : Byte) : Option Reg :=
  if b = 1#8 then some .ax
  else if b = 2#8 then some .bx
  else if b = 3#8 then some .cx
  else if b = 4#8 then some .dx
  else none

/-- The byte that names a register (R21). -/
def byteOfReg : Reg → Byte
  | .ax => 1#8
  | .bx => 2#8
  | .cx => 3#8
  | .dx => 4#8

/-- `get(reg)` (R24). -/
def Regs.get (x : Regs) : Reg → Byte
  | .ax => x.ax
  | .bx => x.bx
  | .cx => x.cx
  | .dx => x.dx

/-- `set(reg, byte)` (R24). -/
def Regs.set (x : Regs) (r : Reg) (v : Byte) : Regs :=
  match r with
  | .ax => { x with ax := v }
  | .bx => { x with bx := v }
  | .cx => { x with cx := v }
  | .dx => { x with dx := v }

/-- `get` by identifier byte: `none` is the InvalidRegister condition (R22). -/
def Regs.getByte (x : Regs) (b : Byte) : Option Byte := (regOfByte b).map x.get

/-- `x[r] <- v`. -/
def State.writeReg (s : State) (r : Reg) (v : Byte) : State := { s with regs := s.regs.set r v }

/-- Go on with the register an operand byte names, or raise InvalidRegister with that byte (R22, D17). -/
def withReg (b : Byte) (s : State) (k : Reg → Host.Outcome State Fault Refusal) : Host.Outcome State Fault Refusal :=
  match regOfByte b with
  | none => .next (s.raise .invalidRegister b.toNat)
  | some r => k r

end Sys2Proof.Machine
end

