-- ==== Sys2Proof/Machine/Data.lean ====
section
/-! DEFINITION. The data instructions NOP, MOVE and ADD (spec/41_data.md R105 to R109). -/

namespace Sys2Proof.Machine

open Sys2Proof

/-- NOP (R105). -/
def execNop (s : State) : Host.Outcome State Fault Refusal := .next (s.advance 1).commit

/-- MOVE reg, imm8 (R106). -/
def execMove (reg imm : Byte) (s : State) : Host.Outcome State Fault Refusal :=
  withReg reg s fun r => .next ((s.writeReg r imm).advance 3).commit

/-- ADD dst, src (R107): `dst` is checked before `src`, and both are read before `dst` is written. -/
def execAdd (dst src : Byte) (s : State) : Host.Outcome State Fault Refusal :=
  withReg dst s fun d => withReg src s fun r =>
    .next ((s.writeReg d (addByte (s.regs.get d) (s.regs.get r))).advance 3).commit

end Sys2Proof.Machine
end

