-- ==== Sys2Proof/Machine/Reserved.lean ====
section
/-! DEFINITION. The reserved opcodes fail fast: each raises UnknownOpcode with its opcode byte, in every context
(spec/43_reserved.md R120 to R126, spec/30_encoding.md R75). -/

namespace Sys2Proof.Machine

open Sys2Proof

/-- Raise UnknownOpcode for an opcode byte (spec/40_cycle.md R94). -/
def failFast (b0 : Byte) (s : State) : Host.Outcome State Fault Refusal := .next (s.raise .unknownOpcode b0.toNat)

/-- RUN (R120). -/
def execRun (s : State) : Host.Outcome State Fault Refusal := failFast opRun s

/-- CID (R121). -/
def execCid (s : State) : Host.Outcome State Fault Refusal := failFast opCid s

/-- LD (R122). -/
def execLd (s : State) : Host.Outcome State Fault Refusal := failFast opLd s

/-- LDC (R123). -/
def execLdc (s : State) : Host.Outcome State Fault Refusal := failFast opLdc s

/-- OUT (R124). -/
def execOut (s : State) : Host.Outcome State Fault Refusal := failFast opOut s

end Sys2Proof.Machine
end

