-- ==== Sys2Proof/Machine/Dispatch.lean ====
section
/-! DEFINITION. Dispatch: one arm per instruction (spec/40_cycle.md R96). -/

namespace Sys2Proof.Machine

open Sys2Proof

def exec (i : Instr) (s : State) : Host.Outcome State Fault Refusal :=
  match i with
  | .nop => Sys2Proof.Machine.execNop s
  | .move reg imm => Sys2Proof.Machine.execMove reg imm s
  | .add dst src => Sys2Proof.Machine.execAdd dst src s
  | .start mid => Sys2Proof.Machine.execStart mid s
  | .ret => Sys2Proof.Machine.execRet s
  | .halt => Sys2Proof.Machine.execHalt s
  | .moduleMark => Sys2Proof.Machine.execModule s
  | .run => Sys2Proof.Machine.execRun s
  | .cid => Sys2Proof.Machine.execCid s
  | .ld => Sys2Proof.Machine.execLd s
  | .ldc => Sys2Proof.Machine.execLdc s
  | .out => Sys2Proof.Machine.execOut s

end Sys2Proof.Machine
end

