-- ==== Sys2Proof/Machine/Fetch.lean ====
section
/-! DEFINITION. The front of an engine step: the status and budget checks, the opcode and operand fetch, the decode
(spec/40_cycle.md R90 to R95, R98). -/

namespace Sys2Proof.Machine

open Sys2Proof

/-- What the front of a step finds to do. -/
inductive Action where
  /-- The status is not RUNNING: there is no step (R90). -/
  | noStep
  /-- The step budget is spent (R92). -/
  | cancel
  /-- The fetch or the decode raises a fault (R93, R94, R95). -/
  | trap (k : FaultKind) (info : Nat)
  /-- An instruction, its operands fetched, to be executed (R96). -/
  | run (i : Instr)
  deriving DecidableEq, Repr

/-- The bytes at `pc`, `pc + 1`, `pc + 2` of the fetch memory, as far as they lie in 0..255 (R93, R95). -/
def State.fetchBytes (s : State) : List Byte := (List.range' s.pc 3).filterMap s.fetchMemory.read

/-- The front of a step, in the order of R98: a byte that is not there is OutOfBounds with its address, an illegal
opcode UnknownOpcode. The reserved opcodes raise theirs in their own meanings. -/
def nextAction (s : State) : Action :=
  if s.status ≠ .running then .noStep
  else if s.budgetSpent then .cancel
  else
    match decode s.fetchBytes with
    | .instr i _ => .run i
    | .missing n => .trap .outOfBounds (s.pc + n)
    | .illegal b0 => .trap .unknownOpcode b0.toNat

/-- Where `State.withFetchBytes` places its bytes: at `pc`, or at 0 when three bytes do not fit there. -/
def State.placeAddress (s : State) : Nat := if s.pc ≤ 253 then s.pc else 0

/-- Everything `State.withFetchWord` does: the bytes stand where the next step fetches, the status is RUNNING, and a
spent budget is lifted (log entry 6). -/
def State.withFetchBytes (s : State) (bytes : List Byte) : State :=
  { s.placeInFetchMemory s.placeAddress bytes with
    pc := s.placeAddress
    status := .running
    params := if s.budgetSpent then { s.params with stepBudget := none } else s.params }

end Sys2Proof.Machine
end

