-- ==== Sys2Proof/Machine/Step.lean ====
section
/-! DEFINITION. One engine step (spec/40_cycle.md R91, R98). -/

namespace Sys2Proof.Machine

open Sys2Proof

/-- One engine step: no step unless RUNNING (R90), a cancellation (R92), a fault of the fetch or decode (R134), or one
instruction (R96). -/
def step (s : State) : Host.Outcome State Fault Refusal :=
  match nextAction s with
  | .noStep => .fault (.notRunning s.status)
  | .cancel => .next s.cancel
  | .trap k info => .next (s.raise k info)
  | .run i => exec i s

/-- `s` with a table word's instruction where `step` fetches next, in the run state (log entry 6). -/
def State.withFetchWord (s : State) (nbits w : Nat) : State := s.withFetchBytes (tableBytes nbits w)

end Sys2Proof.Machine
end

