-- ==== Sys2Proof/Machine/Loader.lean ====
section
/-! DEFINITION. The Loader pass and the host's image load (spec/70_reset_and_hazards.md R161 to R171). -/

namespace Sys2Proof.Machine

open Sys2Proof

/-- Why the Loader failed: the kind, the declaration address and the information value (R164, R165). -/
structure LoadFault where
  kind : FaultKind
  pc : Nat
  info : Nat
  deriving DecidableEq, Repr

/-- What a Loader pass gives. -/
inductive Loaded where
  | table (t : ModuleTable)
  | failed (f : LoadFault)
  deriving DecidableEq, Repr

/-- Accept the declaration at `a` of id `mid` with terminator `t`: fill the slot and copy body and terminator to their
original addresses (R166, R55, D11). -/
def acceptDeclaration (root : Memory) (mt : ModuleTable) (a : Nat) (mid : Byte) (t : Nat) : ModuleTable :=
  mt.setSlot mid
    { mt.slot mid with
      occupied := true
      id := mid
      bodyStart := a + 2
      privateMemory := copyBytes root (List.range' (a + 2) (t + 1 - (a + 2))) (mt.slot mid).privateMemory }

/-- The Loader's loop from address `a` (R166). Every turn moves to a greater address, so 256 turns reach the end. -/
def scanImage (root : Memory) : Nat → Nat → ModuleTable → Loaded
  | 0, _, mt => .table mt
  | turns + 1, a, mt =>
    if memSize ≤ a then .table mt
    else if root.get a ≠ opModule then scanImage root turns (a + 1) mt
    else if a = 255 then .failed ⟨.malformedModule, a, 256⟩
    else if (mt.slot (root.get (a + 1))).occupied = true then
      .failed ⟨.duplicateModule, a, (root.get (a + 1)).toNat⟩
    else
      match findRet root (a + 2) with
      | none => .failed ⟨.malformedModule, a, (root.get (a + 1)).toNat⟩
      | some t => scanImage root turns (t + 1) (acceptDeclaration root mt a (root.get (a + 1)) t)

/-- The Loader: every slot at its reset value, then the scan from address 0 (R163, R166). -/
def load (root : Memory) : Loaded := scanImage root memSize 0 []

/-- The state after a successful load (R171, and the third column of spec/10_state.md R45). -/
def State.startRun (s : State) (root : Memory) (mt : ModuleTable) : State :=
  { s with
    root := root, mt := mt, status := .running, pc := 0, cur := .root, regs := Regs.zero, cs := [], steps := 0,
    fault := FaultRecord.clear }

/-- The outcome of a Loader fault (R167, R134): the table cleared, ROOT keeping the image. -/
def State.loadFailed (s : State) (root : Memory) (f : LoadFault) : State :=
  { s with root := root, mt := [] }.faultEntry f.kind f.pc .root f.info

/-- The host's LoadImage (R161, spec/60_exceptions.md R150, R152): the copy into ROOT and the Loader, one atomic phase. -/
def State.loadImage (s : State) (bytes : List Byte) : Host.Outcome State Fault Refusal :=
  if s.status ≠ .idle then .refused .loadNotIdle
  else if bytes.length ≠ memSize then .refused .imageLength
  else
    match load (Memory.ofBytesAt 0 bytes) with
    | .table mt => .next (s.startRun (Memory.ofBytesAt 0 bytes) mt)
    | .failed f => .next (s.loadFailed (Memory.ofBytesAt 0 bytes) f)

end Sys2Proof.Machine
end

