-- ==== Sys2Proof/Machine/HostInterface.lean ====
section
/-! DEFINITION. What the host can do to the block (spec/60_exceptions.md R150 to R154): Reset, LoadImage, Run, Observe. -/

namespace Sys2Proof.Machine

open Sys2Proof

/-- Engine steps until the status is not RUNNING, at most `n` of them (R150 Run, spec/40_cycle.md R101). -/
def State.runFor : Nat → State → Host.Outcome State Fault Refusal
  | 0, s => .next s
  | n + 1, s =>
    if s.status = .running then
      match step s with
      | .next t => State.runFor n t
      | .fault r => .fault r
      | .refused r => .refused r
    else .next s

/-- More steps than any run takes: 258^(MAX_DEPTH + 1) (spec/40_cycle.md R103). -/
def State.stepBound (s : State) : Nat := 258 ^ (s.params.maxDepth + 1)

/-- The host actions that change the block (R150). -/
inductive HostAction where
  | reset
  | loadImage (bytes : List Byte)
  | run
  deriving DecidableEq, Repr

/-- A host action. Reset is allowed at any time and abandons a run (R150, spec/70_reset_and_hazards.md R160, R180);
LoadImage needs IDLE and Run needs RUNNING. -/
def hostAction (a : HostAction) (s : State) : Host.Outcome State Fault Refusal :=
  match a with
  | .reset => .next (State.resetWith s.params)
  | .loadImage bytes => s.loadImage bytes
  | .run => if s.status = .running then s.runFor s.stepBound else .refused .runNotRunning

/-- What the host may observe (spec/10_state.md R47): everything but ROOT. -/
structure Observation where
  regs : Regs
  pc : Nat
  cur : Ctx
  cs : List Frame
  status : Status
  fault : FaultRecord
  steps : Nat
  mt : ModuleTable
  deriving DecidableEq, Repr

/-- Observe: allowed in every status but RUNNING (R47, R150, R154, conflict C9). -/
def State.observe (s : State) : Option Observation :=
  if s.status = .running then none
  else some ⟨s.regs, s.pc, s.cur, s.cs, s.status, s.fault, s.steps, s.mt⟩

end Sys2Proof.Machine
end

