-- ==== Sys2Proof/Safety.lean ====
section
/-! DEFINITION. The invariants of the machine and what a safe run is, in the terms the statements use. -/

namespace Sys2Proof.Machine

open Sys2Proof

/-- The engine takes a step that is not a cancellation (spec/40_cycle.md R90, R92). -/
abbrev State.ready (s : State) : Prop := s.status = .running ∧ s.budgetSpent = false

/-- The call stack fits the current context: an empty stack in the root context; in a module context a top frame whose
return context fits the stack below it (spec/10_state.md R39), with every return pc in 0..256 (R38). -/
def stackFits : Ctx → List Frame → Bool
  | .root, [] => true
  | .root, _ :: _ => false
  | .mod _, [] => false
  | .mod _, f :: rest => decide (f.retPc ≤ 256) && stackFits f.retCtx rest

/-- The fault record holds its reset value unless the status is FAULTED, and then a kind and values in range
(spec/10_state.md R41). -/
def faultFits (st : Status) (f : FaultRecord) : Bool :=
  if st = .faulted then f.kind.isSome && decide (f.pc ≤ 256) && decide (f.info ≤ 256)
  else decide (f = FaultRecord.clear)

/-- The value ranges of a Module Table record (spec/10_state.md R34). -/
def recordFits (r : ModuleRecord) : Bool := decide (r.bodyStart ≤ 256) && decide (r.entryLocation ≤ 256)

/-- The invariant of the machine: every value in its range (spec/10_state.md R28, R34, R38, R41), the stack fitting the
context and within MAX_DEPTH (R38, R39), MAX_DEPTH at least 1 (R6), the memories and the table in canonical form. -/
structure State.Inv (s : State) : Prop where
  pc_le : s.pc ≤ 256
  stack : stackFits s.cur s.cs = true
  depth_le : s.depth ≤ s.params.maxDepth
  maxDepth_pos : 1 ≤ s.params.maxDepth
  fault_fits : faultFits s.status s.fault = true
  root_wf : s.root.wf = true
  table_wf : s.mt.wf = true
  records_fit : ∀ m : Byte, recordFits (s.slot m) = true

/-- What a successful load leaves, for one occupied slot `m` with terminator `t` (spec/10_state.md R46). -/
structure State.SlotLoaded (s : State) (m : Byte) (t : Nat) : Prop where
  id_eq : (s.slot m).id = m
  start_ge : 2 ≤ (s.slot m).bodyStart
  start_le : (s.slot m).bodyStart ≤ t
  term_le : t ≤ 255
  declared : s.root.get ((s.slot m).bodyStart - 2) = opModule
  copied : ∀ a, (s.slot m).bodyStart ≤ a → a ≤ t → s.readByte (.mod m) a = s.root.get a
  zero_else : ∀ a, a < (s.slot m).bodyStart ∨ t < a → s.readByte (.mod m) a = 0#8
  term_ret : s.readByte (.mod m) t = opRet
  no_ret_before : ∀ a, (s.slot m).bodyStart ≤ a → a < t → s.readByte (.mod m) a ≠ opRet

/-- The invariants of R46: every occupied slot is as the Loader left it. -/
def State.ModulesLoaded (s : State) : Prop := ∀ m : Byte, (s.slot m).occupied = true → ∃ t, s.SlotLoaded m t

/-- Every cell of every space reads the same (spec/20_memory.md R64). -/
def State.sameMemories (s t : State) : Prop := ∀ (c : Ctx) (a : Nat), t.readByte c a = s.readByte c a

/-- The state after exactly `n` engine steps; `none` when one of them has no next state (spec/40_cycle.md R90). -/
def State.after : Nat → State → Option State
  | 0, s => some s
  | n + 1, s =>
    match step s with
    | .next t => State.after n t
    | .fault _ => none
    | .refused _ => none

/-- All the engine's registers but X, `pc`, `status`, the fault record and `steps` are as they were: the context, the
call stack, the Module Table, ROOT and the parameters, and every byte of every space. -/
structure State.SameOutside (s t : State) : Prop where
  cur_eq : t.cur = s.cur
  cs_eq : t.cs = s.cs
  mt_eq : t.mt = s.mt
  root_eq : t.root = s.root
  params_eq : t.params = s.params
  bytes_eq : s.sameMemories t

/-- Two states that differ only in Module Table fields the engine does not read: `occupied`, `bodyStart` and the private
memory of every slot agree (spec/10_state.md R37). -/
structure State.SameForEngine (s u : State) : Prop where
  rest_eq : u = { s with mt := u.mt }
  occupied_eq : ∀ m : Byte, (u.slot m).occupied = (s.slot m).occupied
  start_eq : ∀ m : Byte, (u.slot m).bodyStart = (s.slot m).bodyStart
  bytes_eq : s.sameMemories u

/-- A safe run: `n` steps of the engine from `s` end in a next state, never in a stop of the model. -/
def State.safeFor (s : State) (n : Nat) : Prop := ∃ t, s.runFor n = .next t

/-- The addresses the Loader's scan stands at outside bodies (spec/70_reset_and_hazards.md R166, D12), written as a
relation: from 0, one byte on past a byte that is not MODULE, and past the terminator of a declaration. -/
inductive Scanned (root : Memory) : Nat → Prop where
  | start : Scanned root 0
  | skip {a : Nat} : Scanned root a → a ≤ 255 → root.get a ≠ opModule → Scanned root (a + 1)
  | past {a t : Nat} : Scanned root a → a ≤ 254 → root.get a = opModule → a + 2 ≤ t → t ≤ 255 → root.get t = opRet →
      (∀ x, a + 2 ≤ x → x < t → root.get x ≠ opRet) → Scanned root (t + 1)

/-- The address `a` is a declaration of id `m` that the scan meets (R14, R166). -/
def DeclaredAt (root : Memory) (a : Nat) (m : Byte) : Prop :=
  Scanned root a ∧ a ≤ 254 ∧ root.get a = opModule ∧ root.get (a + 1) = m

end Sys2Proof.Machine
end

