-- ==== Sys2Proof/Certificates/Slice0/Obligations.lean ====
section
/-! DEFINITION. What is claimed of the model. Each statement names the rule of spec/ it formalises. -/

open Sys2Proof Sys2Proof.Machine

/-! ### Encoding -/

/-- The encoding examples of spec/30_encoding.md R81, both ways. `MODULE 0x01` is a declaration's first two bytes. -/
def Obligations.SpecEncodingExamples : Prop :=
  encode .nop = [0x00#8] ∧ encode (.move 1#8 4#8) = [0x10#8, 0x01#8, 0x04#8] ∧
  encode (.move 2#8 9#8) = [0x10#8, 0x02#8, 0x09#8] ∧ encode (.add 1#8 2#8) = [0x11#8, 0x01#8, 0x02#8] ∧
  encode (.start 0x00#8) = [0x12#8, 0x00#8] ∧ encode (.start 0xFF#8) = [0x12#8, 0xFF#8] ∧
  encode .ret = [0x13#8] ∧ encode .halt = [0x14#8] ∧
  (∀ body, (Declaration.encode ⟨0x01#8, body⟩).take 2 = [0x15#8, 0x01#8]) ∧
  decode [0x00#8] = .instr .nop [] ∧ decode [0x10#8, 0x01#8, 0x04#8] = .instr (.move 1#8 4#8) [] ∧
  decode [0x10#8, 0x02#8, 0x09#8] = .instr (.move 2#8 9#8) [] ∧
  decode [0x11#8, 0x01#8, 0x02#8] = .instr (.add 1#8 2#8) [] ∧
  decode [0x12#8, 0x00#8] = .instr (.start 0x00#8) [] ∧ decode [0x12#8, 0xFF#8] = .instr (.start 0xFF#8) [] ∧
  decode [0x13#8] = .instr .ret [] ∧ decode [0x14#8] = .instr .halt [] ∧
  decode [0x15#8, 0x01#8] = .instr .moduleMark [0x01#8]

/-- Decoding the bytes of any instruction, whatever follows them, gives that instruction and what follows; and no other
bytes decode to it (spec/30_encoding.md R71, R73, R74). -/
def Obligations.DecodeEncodeInverse : Prop :=
  (∀ (i : Instr) (rest : List Byte), decode (encode i ++ rest) = .instr i rest) ∧
  (∀ (bs : List Byte) (i : Instr) (rest : List Byte), decode bs = .instr i rest → bs = encode i ++ rest)

/-- Decode is total by byte 0 (spec/30_encoding.md R74): the illegal row is 0x01..0x0F and 0x1B..0xFF, and every other
byte, with its operands there, gives the instruction of that opcode and takes exactly its length (R71). For MODULE and
the reserved opcodes, whose length R71 gives as variable or not defined, the length 1 is the model's (log entry 8). -/
def Obligations.OpcodeMapIsTotal : Prop :=
  ∀ (b0 : Byte) (rest : List Byte),
    (decode (b0 :: rest) = .illegal b0 ↔ (0x01 ≤ b0.toNat ∧ b0.toNat ≤ 0x0F) ∨ 0x1B ≤ b0.toNat) ∧
    (∀ b, decode (b0 :: rest) = .illegal b → b = b0) ∧
    (2 ≤ rest.length → decode (b0 :: rest) ≠ .illegal b0 →
      ∃ i : Instr, i.opcode = b0 ∧ decode (b0 :: rest) = .instr i (rest.drop (i.length - 1)))

/-! ### The engine step -/

/-- When the engine steps and the bytes at the program counter are those of an instruction, `step` is `exec` of it
(spec/40_cycle.md R93 to R98). `step` adds nothing around `exec`: each meaning moves the pc and counts the step. -/
def Obligations.StepRunsDecodedInstruction : Prop :=
  (∀ (s : State) (i : Instr) (rest : List Byte), s.ready → decode s.fetchBytes = .instr i rest → step s = exec i s) ∧
  (∀ (s : State) (i : Instr), s.ready → s.pc + i.length ≤ 256 →
    (∀ (n : Nat) (h : n < (encode i).length), s.readByte s.cur (s.pc + n) = (encode i)[n]) → step s = exec i s)

/-- The terminator search of R115 and R166 as the spec writes it: the least member of
`{ a : lo <= a <= 255 and ROOT[a] = 0x13 }`. -/
def Sys2Proof.Machine.leastRet (root : Memory) (lo : Nat) : Option Nat :=
  ((List.range 256).filter fun a => decide (lo ≤ a) && decide (root.get a = 0x13#8)).head?

/-- `x[r]` by register number, 0 where none has it. -/
def Sys2Proof.Machine.regNumber (x : Regs) (r : Nat) : Nat :=
  if r = 1 then x.ax.toNat else if r = 2 then x.bx.toNat else if r = 3 then x.cx.toNat
  else if r = 4 then x.dx.toNat else 0

/-- `x[r] <- v` by register number. -/
def Sys2Proof.Machine.setNumber (x : Regs) (r : Nat) (v : Byte) : Regs :=
  if r = 1 then { x with ax := v } else if r = 2 then { x with bx := v } else if r = 3 then { x with cx := v }
  else if r = 4 then { x with dx := v } else x

/-- spec/40_cycle.md R98 transcribed over raw bytes, each instruction's rule in its place, with no decoder and none of
the model's instruction operations; it reads cells and slots, and writes a slot. -/
def Sys2Proof.Machine.pseudocodeStep (s : State) : State :=
  let fm := s.readByte s.cur
  let trap := fun (k : FaultKind) (info : Nat) =>
    { s with status := .faulted, fault := ⟨some k, s.pc, s.cur, info⟩ }
  let b0 := fm s.pc
  let b1 := fm (s.pc + 1)
  let b2 := fm (s.pc + 2)
  let n := s.steps + 1
  if (∃ b ∈ s.params.stepBudget, b ≤ s.steps) then { s with status := .cancelled }
  else if 256 ≤ s.pc then trap .outOfBounds s.pc
  else if b0 = 0x00#8 then { s with pc := s.pc + 1, steps := n }
  else if b0 = 0x10#8 then
    if 256 ≤ s.pc + 1 then trap .outOfBounds (s.pc + 1)
    else if 256 ≤ s.pc + 2 then trap .outOfBounds (s.pc + 2)
    else if b1.toNat = 0 ∨ 5 ≤ b1.toNat then trap .invalidRegister b1.toNat
    else { s with regs := setNumber s.regs b1.toNat b2, pc := s.pc + 3, steps := n }
  else if b0 = 0x11#8 then
    if 256 ≤ s.pc + 1 then trap .outOfBounds (s.pc + 1)
    else if 256 ≤ s.pc + 2 then trap .outOfBounds (s.pc + 2)
    else if b1.toNat = 0 ∨ 5 ≤ b1.toNat then trap .invalidRegister b1.toNat
    else if b2.toNat = 0 ∨ 5 ≤ b2.toNat then trap .invalidRegister b2.toNat
    else
      { s with
        regs := setNumber s.regs b1.toNat
          (BitVec.ofNat 8 ((regNumber s.regs b1.toNat + regNumber s.regs b2.toNat) % 256))
        pc := s.pc + 3
        steps := n }
  else if b0 = 0x12#8 then
    if 256 ≤ s.pc + 1 then trap .outOfBounds (s.pc + 1)
    else if (s.slot b1).occupied = false then trap .unknownModule b1.toNat
    else if s.params.maxDepth ≤ s.cs.length then trap .callStackExhausted b1.toNat
    else
      { s with
        cs := ⟨s.pc + 2, s.cur, s.regs⟩ :: s.cs
        mt := s.mt.setSlot b1
          { s.slot b1 with
            registerCache := s.regs
            caller := match s.cur with
              | .root => ⟨true, 0#8⟩
              | .mod k => ⟨false, k⟩
            entry := true
            entryLocation := (s.slot b1).bodyStart }
        regs := ⟨0#8, 0#8, 0#8, 0#8⟩
        cur := .mod b1
        pc := (s.slot b1).bodyStart
        steps := n }
  else if b0 = 0x13#8 then
    match s.cur, s.cs with
    | .mod _, f :: rest => { s with cs := rest, regs := f.saved, cur := f.retCtx, pc := f.retPc, steps := n }
    | _, _ => { s with status := .done, steps := n }
  else if b0 = 0x14#8 then { s with status := .halted, steps := n }
  else if b0 = 0x15#8 then
    match s.cur with
    | .root =>
      match leastRet s.root (s.pc + 2) with
      | some t => { s with pc := t + 1, steps := n }
      | none => trap .malformedModule (if s.pc ≤ 254 then (s.root.get (s.pc + 1)).toNat else 256)
    | .mod m => trap .malformedModule m.toNat
  else trap .unknownOpcode b0.toNat

/-- The engine step is the pseudocode of spec/40_cycle.md R98, with the checks in the order of spec/60_exceptions.md R132,
in every RUNNING state but one with a module context and an empty call stack, which R39 excludes. -/
def Obligations.StepMeetsPseudocode : Prop :=
  ∀ s : State, s.status = .running → (s.cur ≠ .root → s.cs ≠ []) → step s = .next (pseudocodeStep s)

/-- spec/40_cycle.md R90: no step unless RUNNING (the name of that stop is the model's, log entry 4); and, from a state that meets the invariant, a step whenever RUNNING. -/
def Obligations.EngineStepsOnlyWhenRunning : Prop :=
  (∀ s : State, s.status ≠ .running → step s = .fault (.notRunning s.status)) ∧
  (∀ s : State, s.Inv → s.status = .running → ∃ t, step s = .next t)

/-- spec/40_cycle.md R92: a spent budget cancels and changes nothing else; with no budget no step cancels. -/
def Obligations.BudgetCancelsRun : Prop :=
  (∀ (s : State) (b : Nat), s.status = .running → s.params.stepBudget = some b → b ≤ s.steps →
    step s = .next { s with status := .cancelled }) ∧
  (∀ (s t : State), s.params.stepBudget = none → step s = .next t → t.status ≠ .cancelled) ∧
  (∀ (s t : State) (b : Nat), s.params.stepBudget = some b → s.steps < b → step s = .next t → t.status ≠ .cancelled)

/-- spec/40_cycle.md R93: the opcode fetch. -/
def Obligations.OpcodeFetchOutOfBounds : Prop :=
  ∀ s : State, s.ready →
    (256 ≤ s.pc → step s = .next { s with status := .faulted, fault := ⟨some .outOfBounds, s.pc, s.cur, s.pc⟩ }) ∧
    (s.pc < 256 → s.fetchBytes.head? = some (s.readByte s.cur s.pc))

/-- spec/40_cycle.md R95: the operand fetch of MOVE, ADD (L = 3) and START (L = 2), before any operand is checked; and the
one-byte instructions and MODULE fetch no operand. -/
def Obligations.OperandFetchOutOfBounds : Prop :=
  ∀ (s : State) (b0 : Byte), s.ready → s.pc < 256 → s.readByte s.cur s.pc = b0 →
    (b0 = 0x10#8 ∨ b0 = 0x11#8 → 254 ≤ s.pc →
      step s = .next { s with status := .faulted, fault := ⟨some .outOfBounds, s.pc, s.cur, 256⟩ }) ∧
    (b0 = 0x12#8 → s.pc = 255 →
      step s = .next { s with status := .faulted, fault := ⟨some .outOfBounds, s.pc, s.cur, 256⟩ }) ∧
    (b0 = 0x10#8 → s.pc < 254 →
      step s = exec (.move (s.readByte s.cur (s.pc + 1)) (s.readByte s.cur (s.pc + 2))) s) ∧
    (b0 = 0x11#8 → s.pc < 254 →
      step s = exec (.add (s.readByte s.cur (s.pc + 1)) (s.readByte s.cur (s.pc + 2))) s) ∧
    (b0 = 0x12#8 → s.pc < 255 → step s = exec (.start (s.readByte s.cur (s.pc + 1))) s) ∧
    (b0 = 0x00#8 → step s = exec .nop s) ∧ (b0 = 0x13#8 → step s = exec .ret s) ∧
    (b0 = 0x14#8 → step s = exec .halt s) ∧ (b0 = 0x15#8 → step s = exec .moduleMark s)

/-- spec/40_cycle.md R94, spec/43_reserved.md R125: every opcode byte outside 0x00 and 0x10..0x15 raises UnknownOpcode,
whatever the pc and the bytes after it. -/
def Obligations.UnknownOpcodeAtDecode : Prop :=
  ∀ s : State, s.ready → s.pc < 256 →
    (s.readByte s.cur s.pc).toNat ≠ 0 →
    ¬ (0x10 ≤ (s.readByte s.cur s.pc).toNat ∧ (s.readByte s.cur s.pc).toNat ≤ 0x15) →
    step s = .next { s with
      status := .faulted, fault := ⟨some .unknownOpcode, s.pc, s.cur, (s.readByte s.cur s.pc).toNat⟩ }

/-! ### The instructions -/

/-- spec/41_data.md R105. -/
def Obligations.NopAdvances : Prop :=
  ∀ s : State,
    exec .nop s = .next { s with pc := s.pc + 1, steps := s.steps + 1 } ∧
    (s.ready → s.pc ≤ 255 → s.readByte s.cur s.pc = 0x00#8 →
      step s = .next { s with pc := s.pc + 1, steps := s.steps + 1 }) ∧
    (s.ready → s.pc = 256 →
      step s = .next { s with status := .faulted, fault := ⟨some .outOfBounds, 256, s.cur, 256⟩ })

/-- spec/41_data.md R106. -/
def Obligations.MoveLoadsLiteral : Prop :=
  ∀ (s : State) (reg imm : Byte),
    (1 ≤ reg.toNat ∧ reg.toNat ≤ 4 →
      ∃ x, exec (.move reg imm) s = .next { s with regs := x, pc := s.pc + 3, steps := s.steps + 1 } ∧
        ∀ q : Byte, x.getByte q = if q = reg then some imm else s.regs.getByte q) ∧
    (reg.toNat = 0 ∨ 5 ≤ reg.toNat →
      exec (.move reg imm) s = .next { s with
        status := .faulted, fault := ⟨some .invalidRegister, s.pc, s.cur, reg.toNat⟩ }) ∧
    (s.ready → s.pc ≤ 253 → s.readByte s.cur s.pc = 0x10#8 → s.readByte s.cur (s.pc + 1) = reg →
      s.readByte s.cur (s.pc + 2) = imm → step s = exec (.move reg imm) s) ∧
    (s.ready → s.pc = 254 ∨ s.pc = 255 → s.readByte s.cur s.pc = 0x10#8 →
      step s = .next { s with status := .faulted, fault := ⟨some .outOfBounds, s.pc, s.cur, 256⟩ })

/-- spec/41_data.md R107: `dst` is checked before `src`. -/
def Obligations.AddWraps : Prop :=
  ∀ (s : State) (dst src : Byte),
    (∀ a b, s.regs.getByte dst = some a → s.regs.getByte src = some b →
      ∃ x, exec (.add dst src) s = .next { s with regs := x, pc := s.pc + 3, steps := s.steps + 1 } ∧
        ∀ q : Byte,
          x.getByte q = if q = dst then some (BitVec.ofNat 8 (a.toNat + b.toNat)) else s.regs.getByte q) ∧
    (∀ q : Byte, s.regs.getByte q = none ↔ q.toNat = 0 ∨ 5 ≤ q.toNat) ∧
    (dst.toNat = 0 ∨ 5 ≤ dst.toNat →
      exec (.add dst src) s = .next { s with
        status := .faulted, fault := ⟨some .invalidRegister, s.pc, s.cur, dst.toNat⟩ }) ∧
    (1 ≤ dst.toNat ∧ dst.toNat ≤ 4 → src.toNat = 0 ∨ 5 ≤ src.toNat →
      exec (.add dst src) s = .next { s with
        status := .faulted, fault := ⟨some .invalidRegister, s.pc, s.cur, src.toNat⟩ }) ∧
    (s.ready → s.pc ≤ 253 → s.readByte s.cur s.pc = 0x11#8 → s.readByte s.cur (s.pc + 1) = dst →
      s.readByte s.cur (s.pc + 2) = src → step s = exec (.add dst src) s) ∧
    (s.ready → s.pc = 254 ∨ s.pc = 255 → s.readByte s.cur s.pc = 0x11#8 →
      step s = .next { s with status := .faulted, fault := ⟨some .outOfBounds, s.pc, s.cur, 256⟩ })

/-- spec/41_data.md R108: the sum modulo 2^8, right for the unsigned and for the two's-complement reading. -/
def Obligations.AdditionIsModulo256 : Prop :=
  ∀ a b : Byte, (addByte a b).toNat = (a.toNat + b.toNat) % 256 ∧
    (addByte a b).toInt = Int.bmod (a.toInt + b.toInt) 256

/-- spec/42_control.md R110: START's call, its two faults, and its fetch. -/
def Obligations.StartCallsModule : Prop :=
  ∀ (s : State) (m : Byte),
    ((s.slot m).occupied = true → s.depth < s.params.maxDepth →
      ∃ t, exec (.start m) s = .next t ∧
        t.cs = ⟨s.pc + 2, s.cur, s.regs⟩ :: s.cs ∧
        (t.slot m).registerCache = s.regs ∧
        (s.cur = .root → (t.slot m).caller = ⟨true, 0#8⟩) ∧
        (∀ k, s.cur = .mod k → (t.slot m).caller = ⟨false, k⟩) ∧
        (t.slot m).entry = true ∧ (t.slot m).entryLocation = (s.slot m).bodyStart ∧
        (t.slot m).id = (s.slot m).id ∧ (t.slot m).occupied = true ∧
        (t.slot m).bodyStart = (s.slot m).bodyStart ∧ (t.slot m).privateMemory = (s.slot m).privateMemory ∧
        (∀ k, k ≠ m → t.slot k = s.slot k) ∧
        t.regs = ⟨0#8, 0#8, 0#8, 0#8⟩ ∧ t.cur = .mod m ∧ t.pc = (s.slot m).bodyStart ∧
        t.steps = s.steps + 1 ∧ t.root = s.root ∧ t.status = s.status ∧ t.fault = s.fault ∧ t.params = s.params) ∧
    ((s.slot m).occupied = false →
      exec (.start m) s = .next { s with
        status := .faulted, fault := ⟨some .unknownModule, s.pc, s.cur, m.toNat⟩ }) ∧
    ((s.slot m).occupied = true → s.params.maxDepth ≤ s.depth →
      exec (.start m) s = .next { s with
        status := .faulted, fault := ⟨some .callStackExhausted, s.pc, s.cur, m.toNat⟩ }) ∧
    (s.ready → s.pc ≤ 254 → s.readByte s.cur s.pc = 0x12#8 → s.readByte s.cur (s.pc + 1) = m →
      step s = exec (.start m) s) ∧
    (s.ready → s.pc = 255 → s.readByte s.cur s.pc = 0x12#8 →
      step s = .next { s with status := .faulted, fault := ⟨some .outOfBounds, s.pc, s.cur, 256⟩ })

/-- spec/42_control.md R112: RET ends the run in the root context, and returns to the top frame in a module context; in a
module context that meets the invariant the stack is never empty. -/
def Obligations.RetReturnsOrEnds : Prop :=
  ∀ s : State,
    (s.cur = .root → exec .ret s = .next { s with status := .done, steps := s.steps + 1 }) ∧
    (∀ m f rest, s.cur = .mod m → s.cs = f :: rest →
      exec .ret s = .next { s with
        cs := rest, regs := f.saved, cur := f.retCtx, pc := f.retPc, steps := s.steps + 1 }) ∧
    (∀ m, s.Inv → s.cur = .mod m → s.cs ≠ []) ∧
    (s.ready → s.pc ≤ 255 → s.readByte s.cur s.pc = 0x13#8 → step s = exec .ret s)

/-- The model's own stop (log entry 3): RET in a module context with an empty call stack, which spec/10_state.md R39 says
no run reaches. -/
def Obligations.RetWithoutFrameStops : Prop :=
  ∀ (s : State) (m : Byte), s.cur = .mod m → (s.cs = [] ↔ exec .ret s = .fault .callStackEmpty)

/-- spec/42_control.md R114. -/
def Obligations.HaltStopsMachine : Prop :=
  ∀ s : State,
    exec .halt s = .next { s with status := .halted, steps := s.steps + 1 } ∧
    (s.ready → s.pc ≤ 255 → s.readByte s.cur s.pc = 0x14#8 →
      step s = .next { s with status := .halted, steps := s.steps + 1 })

/-- spec/42_control.md R115: the declaration skip in the root context, MalformedModule when no terminator follows; at a
declaration the Loader accepted it lands just past that declaration's terminator. -/
def Obligations.DeclarationSkipped : Prop :=
  ∀ s : State, s.cur = .root →
    (∀ t, s.pc + 2 ≤ t → t ≤ 255 → s.root.get t = 0x13#8 →
      (∀ a, s.pc + 2 ≤ a → a < t → s.root.get a ≠ 0x13#8) →
      exec .moduleMark s = .next { s with pc := t + 1, steps := s.steps + 1 }) ∧
    ((∀ a, s.pc + 2 ≤ a → a ≤ 255 → s.root.get a ≠ 0x13#8) →
      exec .moduleMark s = .next { s with
        status := .faulted
        fault := ⟨some .malformedModule, s.pc, .root,
          if s.pc ≤ 254 then (s.root.get (s.pc + 1)).toNat else 256⟩ }) ∧
    (∀ (m : Byte) (t : Nat), s.SlotLoaded m t → s.pc + 2 = (s.slot m).bodyStart →
      exec .moduleMark s = .next { s with pc := t + 1, steps := s.steps + 1 }) ∧
    (s.ready → s.pc ≤ 255 → s.root.get s.pc = 0x15#8 → step s = exec .moduleMark s)

/-- spec/42_control.md R116. -/
def Obligations.MarkerInModuleFaults : Prop :=
  ∀ (s : State) (m : Byte), s.cur = .mod m →
    exec .moduleMark s = .next { s with
      status := .faulted, fault := ⟨some .malformedModule, s.pc, .mod m, m.toNat⟩ } ∧
    (s.ready → s.pc ≤ 255 → s.readByte (.mod m) s.pc = 0x15#8 →
      step s = .next { s with status := .faulted, fault := ⟨some .malformedModule, s.pc, .mod m, m.toNat⟩ })

/-- spec/43_reserved.md R120 to R124: each reserved opcode raises UnknownOpcode with its byte, in every context and at every
pc, 255 among them. -/
def Obligations.ReservedOpcodesFailFast : Prop :=
  ∀ s : State, ∀ p ∈ [(Instr.run, 0x16#8), (Instr.cid, 0x17#8), (Instr.ld, 0x18#8), (Instr.ldc, 0x19#8),
      (Instr.out, 0x1A#8)],
    exec p.1 s = .next { s with
      status := .faulted, fault := ⟨some .unknownOpcode, s.pc, s.cur, p.2.toNat⟩ } ∧
    (s.ready → s.pc ≤ 255 → s.readByte s.cur s.pc = p.2 →
      step s = .next { s with status := .faulted, fault := ⟨some .unknownOpcode, s.pc, s.cur, p.2.toNat⟩ })

/-! ### Frames -/

/-- What NOP, MOVE and ADD leave unchanged: everything outside X, pc, status, the fault record and `steps`, with every
byte of memory; every register but MOVE's `reg` and ADD's `dst`; and the status and fault record unless they raise
InvalidRegister, and then the registers, pc and `steps`. -/
def Obligations.DataInstructionsFrame : Prop :=
  ∀ (s t : State) (i : Instr) (dest : Option Byte),
    (i = .nop ∧ dest = none) ∨ (∃ reg imm, i = .move reg imm ∧ dest = some reg) ∨
      (∃ dst src, i = .add dst src ∧ dest = some dst) →
    exec i s = .next t →
    s.SameOutside t ∧ (∀ q : Byte, dest ≠ some q → t.regs.getByte q = s.regs.getByte q) ∧
    ((t.status = s.status ∧ t.fault = s.fault) ∨
     (t.status = .faulted ∧ t.fault.kind = some .invalidRegister ∧ t.regs = s.regs ∧ t.pc = s.pc ∧
       t.steps = s.steps))

/-- What START, RET, HALT, MODULE and the reserved opcodes leave unchanged: every byte of memory, ROOT, the parameters,
`id`, `occupied`, `bodyStart` and the private memory of every slot; all of the Module Table but START's callee slot;
X, the context and the stack for every one but START and RET. -/
def Obligations.ControlInstructionsFrame : Prop :=
  ∀ (s t : State) (i : Instr),
    (∃ m, i = .start m) ∨ i = .ret ∨ i = .halt ∨ i = .moduleMark ∨ i = .run ∨ i = .cid ∨ i = .ld ∨ i = .ldc ∨
      i = .out →
    exec i s = .next t →
    s.sameMemories t ∧ t.root = s.root ∧ t.params = s.params ∧
    (∀ k : Byte, (t.slot k).id = (s.slot k).id ∧ (t.slot k).occupied = (s.slot k).occupied ∧
      (t.slot k).bodyStart = (s.slot k).bodyStart ∧ (t.slot k).privateMemory = (s.slot k).privateMemory) ∧
    (∀ k : Byte, i ≠ .start k → t.slot k = s.slot k) ∧
    ((∀ m, i ≠ .start m) → t.mt = s.mt) ∧
    ((∀ m, i ≠ .start m) → i ≠ .ret → t.regs = s.regs ∧ t.cur = s.cur ∧ t.cs = s.cs) ∧
    (i = .ret ∨ i = .halt → t.fault = s.fault) ∧
    (t.fault = s.fault ∨ t.status = .faulted)

/-! ### Faults and counting -/

/-- spec/60_exceptions.md R135: a step that faults changes only `status` and the fault record; no other step writes the
record. -/
def Obligations.FaultsArePrecise : Prop :=
  ∀ s t : State, step s = .next t →
    (t.status = .faulted →
      t = { s with status := .faulted, fault := t.fault } ∧
        t.fault.kind.isSome = true ∧ t.fault.pc = s.pc ∧ t.fault.ctx = s.cur) ∧
    (t.status ≠ .faulted → t.fault = s.fault)

/-- The engine's rows of spec/60_exceptions.md R130, with the priority of R132: when a step raises the kind `k` with the
information value `info`, in terms of the bytes at `pc`, `pc + 1` and `pc + 2` of the fetch memory. -/
def Sys2Proof.Machine.raisesWhen (s : State) (k : FaultKind) (info : Nat) : Prop :=
  let b0 := s.readByte s.cur s.pc
  let b1 := s.readByte s.cur (s.pc + 1)
  let b2 := s.readByte s.cur (s.pc + 2)
  match k with
  | .outOfBounds =>
      info = 256 ∧ (s.pc = 256 ∨ (254 ≤ s.pc ∧ s.pc ≤ 255 ∧ (b0 = 0x10#8 ∨ b0 = 0x11#8)) ∨ (s.pc = 255 ∧ b0 = 0x12#8))
  | .invalidRegister =>
      s.pc ≤ 253 ∧
      (((b0 = 0x10#8 ∨ b0 = 0x11#8) ∧ (b1.toNat = 0 ∨ 5 ≤ b1.toNat) ∧ info = b1.toNat) ∨
       (b0 = 0x11#8 ∧ (1 ≤ b1.toNat ∧ b1.toNat ≤ 4) ∧ (b2.toNat = 0 ∨ 5 ≤ b2.toNat) ∧ info = b2.toNat))
  | .unknownModule => s.pc ≤ 254 ∧ b0 = 0x12#8 ∧ (s.slot b1).occupied = false ∧ info = b1.toNat
  | .duplicateModule => False
  | .malformedModule =>
      s.pc ≤ 255 ∧ b0 = 0x15#8 ∧
      ((s.cur = .root ∧ (∀ a, s.pc + 2 ≤ a → a ≤ 255 → s.root.get a ≠ 0x13#8) ∧
          info = if s.pc ≤ 254 then (s.root.get (s.pc + 1)).toNat else 256) ∨
        ∃ m : Byte, s.cur = .mod m ∧ info = m.toNat)
  | .callStackExhausted =>
      s.pc ≤ 254 ∧ b0 = 0x12#8 ∧ (s.slot b1).occupied = true ∧ s.depth = s.params.maxDepth ∧ info = b1.toNat
  | .unknownOpcode =>
      s.pc ≤ 255 ∧ info = b0.toNat ∧ ((1 ≤ b0.toNat ∧ b0.toNat ≤ 15) ∨ 0x16 ≤ b0.toNat)

/-- The engine's rows of spec/60_exceptions.md R130: a step that faults met the condition of its kind and records the
values R130 gives; and a step that meets a condition raises that fault. The engine never raises DuplicateModule. -/
def Obligations.FaultConditions : Prop :=
  (∀ (s t : State) (k : FaultKind), s.Inv → step s = .next t → t.status = .faulted → t.fault.kind = some k →
    raisesWhen s k t.fault.info ∧ t.fault.pc = s.pc ∧ t.fault.ctx = s.cur) ∧
  (∀ (s : State) (k : FaultKind) (info : Nat), s.Inv → s.ready → raisesWhen s k info →
    step s = .next { s with status := .faulted, fault := ⟨some k, s.pc, s.cur, info⟩ })

/-- spec/10_state.md R42: `steps` counts the completed steps, the one that sets DONE or HALTED among them; a faulting step
and a cancellation do not count. -/
def Obligations.StepsCountCompletedSteps : Prop :=
  ∀ s t : State, step s = .next t →
    (t.status = .faulted ∨ t.status = .cancelled → t.steps = s.steps) ∧
    (t.status = .running ∨ t.status = .done ∨ t.status = .halted → t.steps = s.steps + 1)

/-! ### Memories and the Module Table -/

/-- spec/20_memory.md R64: ROOT and every private memory are constant over any number of engine steps. -/
def Obligations.MemoriesConstantInRun : Prop :=
  ∀ (n : Nat) (s t : State), s.after n = some t → t.root = s.root ∧ s.sameMemories t ∧
    ∀ m : Byte, (t.slot m).privateMemory = (s.slot m).privateMemory

/-- spec/10_state.md R35: a step changes a slot only when it is a START of that module, and then only the four fields; and
a successful load leaves those four fields at their reset values in every slot. -/
def Obligations.TableWritersAreLoaderAndStart : Prop :=
  (∀ (s t : State) (m : Byte), step s = .next t → t.slot m ≠ s.slot m →
    (∃ rest, decode s.fetchBytes = .instr (.start m) rest) ∧
    t.slot m = { s.slot m with
      registerCache := s.regs
      caller := match s.cur with
        | .root => ⟨true, 0#8⟩
        | .mod k => ⟨false, k⟩
      entry := true
      entryLocation := (s.slot m).bodyStart }) ∧
  (∀ (s t : State) (bytes : List Byte) (m : Byte), s.loadImage bytes = .next t →
    (t.slot m).registerCache = ⟨0#8, 0#8, 0#8, 0#8⟩ ∧ (t.slot m).caller = ⟨true, 0#8⟩ ∧
      (t.slot m).entry = false ∧ (t.slot m).entryLocation = 0)

/-- spec/10_state.md R37, spec/42_control.md R113: no instruction reads a Module Table field as data. Two states that agree
on `occupied`, `bodyStart` and the private memories step alike, whatever their `registerCache`, `caller`, `entry`,
`entryLocation` and `id` hold. -/
def Obligations.TableRecordsSteerNothing : Prop :=
  ∀ s u t : State, s.SameForEngine u → step s = .next t → ∃ v, step u = .next v ∧ t.SameForEngine v

/-- spec/20_memory.md R56: a module context cannot read any other space. Two states in MOD(m) that agree on PRIV[m], and on
`occupied` and `bodyStart` of every slot, step alike but for ROOT and the table, whatever ROOT and the other private
memories hold. -/
def Obligations.ModulesAreSeparated : Prop :=
  ∀ (s u t : State) (m : Byte), s.cur = .mod m → u = { s with root := u.root, mt := u.mt } →
    (∀ a, a ≤ 255 → u.readByte (.mod m) a = s.readByte (.mod m) a) →
    (∀ k : Byte, (u.slot k).occupied = (s.slot k).occupied ∧ (u.slot k).bodyStart = (s.slot k).bodyStart) →
    step s = .next t → ∃ v, step u = .next v ∧ v = { t with root := v.root, mt := v.mt }

/-! ### Reset, load, host -/

/-- spec/70_reset_and_hazards.md R160, and the "after reset" column of spec/10_state.md R45: what the host's Reset leaves,
from any state, for any parameters; and only a Reset leaves a terminal status. That Reset keeps the parameters is the
model's (log entry 2, from R44). -/
def Obligations.ResetPutsEveryValue : Prop :=
  ∀ s : State, ∃ t, hostAction .reset s = .next t ∧
    t.regs = ⟨0#8, 0#8, 0#8, 0#8⟩ ∧ t.pc = 0 ∧ t.cur = .root ∧ (∀ c a, t.readByte c a = 0x00#8) ∧
    (∀ m : Byte, (t.slot m).occupied = false ∧ (t.slot m).id = 0#8 ∧
      (t.slot m).registerCache = ⟨0#8, 0#8, 0#8, 0#8⟩ ∧ (t.slot m).caller = ⟨true, 0#8⟩ ∧
      (t.slot m).entry = false ∧ (t.slot m).entryLocation = 0 ∧ (t.slot m).bodyStart = 0) ∧
    t.cs = [] ∧ t.status = .idle ∧ t.fault = ⟨none, 0, .root, 0⟩ ∧ t.steps = 0 ∧ t.params = s.params ∧
    hostAction .reset State.reset = .next State.reset ∧
    (s.status.isTerminal = true → (∀ u, step s ≠ .next u) ∧ ∀ a u, hostAction a s = .next u → a = .reset)

/-- spec/10_state.md R40: the six statuses have the codes 0 to 5, the last four are terminal, and no step and no host action
but Reset leaves a terminal status. -/
def Obligations.TerminalStatusesAreFinal : Prop :=
  Status.code .idle = 0#3 ∧ Status.code .running = 1#3 ∧ Status.code .done = 2#3 ∧ Status.code .halted = 3#3 ∧
  Status.code .faulted = 4#3 ∧ Status.code .cancelled = 5#3 ∧
  (∀ st : Status, st.isTerminal = true ↔ 2 ≤ st.code.toNat) ∧
  (∀ s : State, s.status.isTerminal = true → (∀ u, step s ≠ .next u) ∧ ∀ a u, hostAction a s = .next u → a = .reset)

/-- spec/70_reset_and_hazards.md R161, R171, spec/60_exceptions.md R152: LoadImage needs IDLE and exactly 256 bytes (the
names of the two refusals are the model's, log entry 11); when the Loader succeeds, the run state. -/
def Obligations.LoadImageStartsRun : Prop :=
  ∀ (s : State) (bytes : List Byte),
    (s.status ≠ .idle → s.loadImage bytes = .refused .loadNotIdle) ∧
    (s.status = .idle → bytes.length ≠ 256 → s.loadImage bytes = .refused .imageLength) ∧
    (s.status = .idle → bytes.length = 256 → ∃ t, s.loadImage bytes = .next t ∧
      (∀ (a : Nat) (h : a < bytes.length), t.readByte .root a = bytes[a]) ∧ t.root.wf = true ∧
      (t.status = .running ∨ t.status = .faulted) ∧
      (t.status = .running → load t.root = .table t.mt ∧ t.pc = 0 ∧ t.cur = .root ∧
        t.regs = ⟨0#8, 0#8, 0#8, 0#8⟩ ∧ t.cs = [] ∧ t.steps = 0 ∧ t.fault = ⟨none, 0, .root, 0⟩ ∧
        t.params = s.params) ∧
      (t.status = .faulted → ∃ f, load t.root = .failed f))

/-- spec/70_reset_and_hazards.md R167: a Loader fault makes the fault entry, empties every slot, keeps the image in ROOT, and
the engine never steps. -/
def Obligations.LoaderFaultOutcome : Prop :=
  ∀ (s : State) (bytes : List Byte) (f : LoadFault), s.status = .idle → bytes.length = 256 →
    load (Memory.ofBytesAt 0 bytes) = .failed f →
    ∃ t, s.loadImage bytes = .next t ∧ t.status = .faulted ∧ t.fault = ⟨some f.kind, f.pc, .root, f.info⟩ ∧
      (∀ m : Byte, t.slot m = ModuleRecord.empty) ∧
      (∀ (a : Nat) (h : a < bytes.length), t.readByte .root a = bytes[a]) ∧
      t.regs = s.regs ∧ t.pc = s.pc ∧ t.cur = s.cur ∧ t.cs = s.cs ∧ t.steps = s.steps ∧ t.params = s.params ∧
      ∀ u, step t ≠ .next u

/-- spec/70_reset_and_hazards.md R166 with R164, R165 and spec/60_exceptions.md R133: the Loader against the relation
`DeclaredAt`. On success a slot is occupied exactly when its id is declared at an address the scan meets, that address
is unique, and the private memory holds body and terminator and 0x00 elsewhere. On failure the reported declaration is
the first faulting one, the missing id byte is checked before the duplicate, and the duplicate before the terminator. -/
def Obligations.LoaderMeetsScan : Prop :=
  (∀ (root : Memory) (mt : ModuleTable), load root = .table mt →
    ¬ (Scanned root 255 ∧ root.get 255 = 0x15#8) ∧
    (∀ m : Byte, (mt.slot m).occupied = true ↔ ∃ a, DeclaredAt root a m) ∧
    (∀ m : Byte, (mt.slot m).occupied = false → mt.slot m = ModuleRecord.empty) ∧
    (∀ (m : Byte) (a : Nat), DeclaredAt root a m →
      (mt.slot m).id = m ∧ (mt.slot m).bodyStart = a + 2 ∧
      ∃ t, a + 2 ≤ t ∧ t ≤ 255 ∧ root.get t = 0x13#8 ∧ (∀ x, a + 2 ≤ x → x < t → root.get x ≠ 0x13#8) ∧
        ∀ x, (mt.slot m).privateMemory.get x = if a + 2 ≤ x ∧ x ≤ t then root.get x else 0x00#8)) ∧
  (∀ (root : Memory) (f : LoadFault), load root = .failed f →
    Scanned root f.pc ∧ f.pc ≤ 255 ∧ root.get f.pc = 0x15#8 ∧
    (∀ (a b : Nat) (m : Byte), a < f.pc → b < f.pc → DeclaredAt root a m → DeclaredAt root b m → a = b) ∧
    ((f.pc = 255 ∧ f.kind = .malformedModule ∧ f.info = 256) ∨
     (f.pc ≤ 254 ∧ f.info = (root.get (f.pc + 1)).toNat ∧
       ((f.kind = .duplicateModule ∧ ∃ b, b < f.pc ∧ DeclaredAt root b (root.get (f.pc + 1))) ∨
        (f.kind = .malformedModule ∧ (¬ ∃ b, b < f.pc ∧ DeclaredAt root b (root.get (f.pc + 1))) ∧
          ∀ x, f.pc + 2 ≤ x → x ≤ 255 → root.get x ≠ 0x13#8)))))

/-- spec/10_state.md R46: after a successful load, and at every step of the run, every occupied slot is as the Loader left
it and the memories are constant. -/
def Obligations.ModulesStayLoaded : Prop :=
  ∀ (s t u : State) (bytes : List Byte) (n : Nat), s.loadImage bytes = .next t → t.status = .running →
    t.after n = some u → u.ModulesLoaded ∧ t.sameMemories u

/-- spec/70_reset_and_hazards.md R170: the Loader example. -/
def Obligations.LoaderExample : Prop :=
  let image : List Byte :=
    [0x15#8, 0x01#8, 0x10#8, 0x01#8, 0x04#8, 0x10#8, 0x02#8, 0x09#8, 0x11#8, 0x01#8, 0x02#8, 0x13#8] ++
      List.replicate 244 0x00#8
  ∃ t, State.reset.loadImage image = .next t ∧ t.status = .running ∧
    (t.slot 1#8).occupied = true ∧ (t.slot 1#8).bodyStart = 2 ∧
    (∀ a, t.readByte (.mod 1#8) a = if 2 ≤ a ∧ a ≤ 11 then image.getD a 0#8 else 0x00#8) ∧
    (∀ m : Byte, m ≠ 1#8 → (t.slot m).occupied = false)

/-- spec/10_state.md R47, spec/60_exceptions.md R150: what the host observes whenever the status is not RUNNING. That it
observes nothing while RUNNING is the model's choice (log entry 11). -/
def Obligations.HostObserves : Prop :=
  ∀ s : State,
    (s.status = .running → s.observe = none) ∧
    (s.status ≠ .running → ∃ o, s.observe = some o ∧ o.regs = s.regs ∧ o.pc = s.pc ∧ o.cur = s.cur ∧ o.cs = s.cs ∧
      o.status = s.status ∧ o.fault = s.fault ∧ o.steps = s.steps ∧ ∀ m : Byte, o.mt.slot m = s.slot m)

/-! ### Invariants -/

/-- The invariant holds after reset, for every admissible MAX_DEPTH and every STEP_BUDGET; and at `State.reset`. -/
def Obligations.InvariantHoldsAtReset : Prop :=
  (∀ p : Params, 1 ≤ p.maxDepth → (State.resetWith p).Inv) ∧ State.reset.Inv

/-- Every engine step keeps the invariant: pc and every saved pc in 0..256 (spec/10_state.md R28, R38), the call stack within
MAX_DEPTH and fitting the context (R38, R39), the fault record at its reset value unless FAULTED (R41), memories and
table in canonical form, no parameter changed (R44). -/
def Obligations.InvariantKeptByStep : Prop :=
  ∀ s t : State, s.Inv → step s = .next t → t.Inv ∧ t.params = s.params

/-- Every host action keeps the invariant: Reset, the image load with its Loader pass, and a whole Run. -/
def Obligations.InvariantKeptByHost : Prop :=
  ∀ (a : HostAction) (s t : State), s.Inv → hostAction a s = .next t → t.Inv

/-- spec/10_state.md R39: depth is 0 exactly in the root context; and in a run, whenever the depth is again what a START made
it, with no return below it in between, the context is the module that START entered. -/
def Obligations.StackMatchesContext : Prop :=
  (∀ s : State, s.Inv → (s.depth = 0 ↔ s.cur = .root)) ∧
  (∀ (s t u : State) (n : Nat), step s = .next t → t.depth = s.depth + 1 → t.after n = some u →
    (∀ k v, k ≤ n → t.after k = some v → t.depth ≤ v.depth) → u.depth = t.depth →
    ∃ m rest, decode s.fetchBytes = .instr (.start m) rest ∧ u.cur = .mod m)

/-- A run from a state that meets the invariant never meets a stop of the model: it goes on to a terminal status. -/
def Obligations.RunsAreSafe : Prop :=
  ∀ (s : State) (n : Nat), s.Inv → s.safeFor n

/-! ### Whole runs -/

/-- spec/40_cycle.md R103: every run ends, within 258^(MAX_DEPTH + 1) steps; so the host's Run ends in a terminal status. -/
def Obligations.EveryRunEnds : Prop :=
  ∀ s : State, s.Inv → s.status = .running →
    (∃ n t, n ≤ 258 ^ (s.params.maxDepth + 1) ∧ s.after n = some t ∧ t.status.isTerminal = true) ∧
    ∃ t, hostAction .run s = .next t ∧ t.status.isTerminal = true

/-- spec/42_control.md R119, the call/return law: from a START to the first step at which the stack is back to the caller's
depth, the caller's context, registers and stack are restored and the pc is just past the START. -/
def Obligations.CallReturnLaw : Prop :=
  ∀ (s t u : State) (n : Nat), step s = .next t → t.depth = s.depth + 1 → t.after n = some u → u.depth = s.depth →
    (∀ k v, k < n → t.after k = some v → s.depth < v.depth) →
    u.cur = s.cur ∧ u.pc = s.pc + 2 ∧ u.regs = s.regs ∧ u.cs = s.cs

/-- spec/40_cycle.md R102, walking off the end: over cells that are all NOP the engine reaches address 256 and faults with
OutOfBounds(256), in any context. -/
def Obligations.WalkingOffTheEnd : Prop :=
  ∀ s : State, s.status = .running → s.params.stepBudget = none → s.pc ≤ 256 →
    (∀ a, s.pc ≤ a → a ≤ 255 → s.readByte s.cur a = 0x00#8) →
    s.after (257 - s.pc) = some { s with
      pc := 256, steps := s.steps + (256 - s.pc), status := .faulted,
      fault := ⟨some .outOfBounds, 256, s.cur, 256⟩ }

/-! ### Registers and the assembler -/

/-- spec/10_state.md R22 and R24: `set` then `get`, no aliasing, `reset()`, and the identifiers that name no register. -/
def Obligations.RegisterFileLaws : Prop :=
  ∀ (x : Regs) (r q : Reg) (v : Byte),
    (x.set r v).get r = v ∧ (q ≠ r → (x.set r v).get q = x.get q) ∧ Regs.zero.get r = 0#8 ∧
    regOfByte (byteOfReg r) = some r ∧ (byteOfReg r = byteOfReg q → r = q) ∧
    ∀ b : Byte, regOfByte b = none ↔ b.toNat = 0 ∨ 5 ≤ b.toNat

/-- spec/30_encoding.md R76, R80, spec/42_control.md R115: a well-formed declaration assembled at `pc` of the root image is
skipped as a whole. -/
def Obligations.AssembledDeclarationSkipped : Prop :=
  ∀ (s : State) (d : Declaration), d.wellFormed = true → s.cur = .root → s.pc + d.encode.length ≤ 256 →
    (∀ (n : Nat) (h : n < d.encode.length), s.root.get (s.pc + n) = d.encode[n]) →
    exec .moduleMark s = .next { s with pc := s.pc + d.encode.length, steps := s.steps + 1 }
end

