-- ==== Sys2Proof/Laws/Decode.lean ====
section
/-! SUPPORT. What the decoder answers (spec/30_encoding.md R71 to R74). -/

namespace Sys2Proof

@[simp] theorem decode_nil : decode [] = .missing 0 := rfl
@[simp] theorem decode_opNop (bs : List Byte) : decode (opNop :: bs) = .instr .nop bs := rfl
@[simp] theorem decode_opMove (bs : List Byte) : decode (opMove :: bs) = operand2 .move bs := rfl
@[simp] theorem decode_opAdd (bs : List Byte) : decode (opAdd :: bs) = operand2 .add bs := rfl
@[simp] theorem decode_opStart (bs : List Byte) : decode (opStart :: bs) = operand1 .start bs := rfl
@[simp] theorem decode_opRet (bs : List Byte) : decode (opRet :: bs) = .instr .ret bs := rfl
@[simp] theorem decode_opHalt (bs : List Byte) : decode (opHalt :: bs) = .instr .halt bs := rfl
@[simp] theorem decode_opModule (bs : List Byte) : decode (opModule :: bs) = .instr .moduleMark bs := rfl
@[simp] theorem decode_opRun (bs : List Byte) : decode (opRun :: bs) = .instr .run bs := rfl
@[simp] theorem decode_opCid (bs : List Byte) : decode (opCid :: bs) = .instr .cid bs := rfl
@[simp] theorem decode_opLd (bs : List Byte) : decode (opLd :: bs) = .instr .ld bs := rfl
@[simp] theorem decode_opLdc (bs : List Byte) : decode (opLdc :: bs) = .instr .ldc bs := rfl
@[simp] theorem decode_opOut (bs : List Byte) : decode (opOut :: bs) = .instr .out bs := rfl

/-- The five shapes a first byte can have: a one-byte instruction, MOVE, ADD, START, or illegal (R71, R73, R74). -/
theorem decode_shapes (b0 : Byte) (bs : List Byte) :
    (∃ i : Instr, i.length = 1 ∧ i.opcode = b0 ∧ decode (b0 :: bs) = .instr i bs) ∨
    (b0 = opMove ∧ decode (b0 :: bs) = operand2 .move bs) ∨ (b0 = opAdd ∧ decode (b0 :: bs) = operand2 .add bs) ∨
    (b0 = opStart ∧ decode (b0 :: bs) = operand1 .start bs) ∨
    (((1 ≤ b0.toNat ∧ b0.toNat ≤ 15) ∨ 27 ≤ b0.toNat) ∧ decode (b0 :: bs) = .illegal b0) := by
  by_cases h0 : b0 = opNop
  · exact .inl ⟨.nop, rfl, h0.symm, by rw [h0]; rfl⟩
  by_cases h1 : b0 = opMove
  · exact .inr (.inl ⟨h1, by rw [h1]; rfl⟩)
  by_cases h2 : b0 = opAdd
  · exact .inr (.inr (.inl ⟨h2, by rw [h2]; rfl⟩))
  by_cases h3 : b0 = opStart
  · exact .inr (.inr (.inr (.inl ⟨h3, by rw [h3]; rfl⟩)))
  by_cases h4 : b0 = opRet
  · exact .inl ⟨.ret, rfl, h4.symm, by rw [h4]; rfl⟩
  by_cases h5 : b0 = opHalt
  · exact .inl ⟨.halt, rfl, h5.symm, by rw [h5]; rfl⟩
  by_cases h6 : b0 = opModule
  · exact .inl ⟨.moduleMark, rfl, h6.symm, by rw [h6]; rfl⟩
  by_cases h7 : b0 = opRun
  · exact .inl ⟨.run, rfl, h7.symm, by rw [h7]; rfl⟩
  by_cases h8 : b0 = opCid
  · exact .inl ⟨.cid, rfl, h8.symm, by rw [h8]; rfl⟩
  by_cases h9 : b0 = opLd
  · exact .inl ⟨.ld, rfl, h9.symm, by rw [h9]; rfl⟩
  by_cases h10 : b0 = opLdc
  · exact .inl ⟨.ldc, rfl, h10.symm, by rw [h10]; rfl⟩
  by_cases h11 : b0 = opOut
  · exact .inl ⟨.out, rfl, h11.symm, by rw [h11]; rfl⟩
  refine .inr (.inr (.inr (.inr ⟨?_, by simp [decode, *]⟩)))
  simp only [opNop, opMove, opAdd, opStart, opRet, opHalt, opModule, opRun, opCid, opLd, opLdc, opOut] at *
  bv_omega

theorem operand1_cases (f : Byte → Instr) (bs : List Byte) :
    (bs = [] ∧ operand1 f bs = .missing 1) ∨ ∃ b1 rest, bs = b1 :: rest ∧ operand1 f bs = .instr (f b1) rest := by
  cases bs with
  | nil => exact .inl ⟨rfl, rfl⟩
  | cons b1 rest => exact .inr ⟨b1, rest, rfl, rfl⟩

theorem operand2_cases (f : Byte → Byte → Instr) (bs : List Byte) :
    (bs.length ≤ 1 ∧ operand2 f bs = .missing (bs.length + 1)) ∨
      ∃ b1 b2 rest, bs = b1 :: b2 :: rest ∧ operand2 f bs = .instr (f b1 b2) rest := by
  match bs with
  | [] => exact .inl ⟨by simp, rfl⟩
  | [_] => exact .inl ⟨by simp, rfl⟩
  | b1 :: b2 :: rest => exact .inr ⟨b1, b2, rest, rfl, rfl⟩

/-- A byte that is not there is the first one after those that are, and no instruction has more than three (R95). -/
theorem decode_missing (bs : List Byte) (n : Nat) (h : decode bs = .missing n) : n = bs.length ∧ n ≤ 2 := by
  cases bs with
  | nil => cases h; exact ⟨rfl, by decide⟩
  | cons b0 bs =>
    rcases decode_shapes b0 bs with ⟨i, _, _, e⟩ | ⟨_, e⟩ | ⟨_, e⟩ | ⟨_, e⟩ | ⟨_, e⟩ <;> rw [e] at h
    · cases h
    · rcases operand2_cases .move bs with ⟨_, e⟩ | ⟨_, _, _, _, e⟩ <;> rw [e] at h <;> cases h
      exact ⟨rfl, by omega⟩
    · rcases operand2_cases .add bs with ⟨_, e⟩ | ⟨_, _, _, _, e⟩ <;> rw [e] at h <;> cases h
      exact ⟨rfl, by omega⟩
    · rcases operand1_cases .start bs with ⟨e0, e⟩ | ⟨_, _, _, e⟩ <;> rw [e] at h <;> cases h
      rw [e0]; exact ⟨rfl, by decide⟩
    · cases h

/-- An instruction takes its length in bytes; the first is its opcode (R71, R73). -/
theorem decode_instr (bs : List Byte) (i : Instr) (rest : List Byte) (h : decode bs = .instr i rest) :
    bs.length = i.length + rest.length ∧ bs.head? = some i.opcode := by
  cases bs with
  | nil => cases h
  | cons b0 bs =>
    rcases decode_shapes b0 bs with ⟨j, hl, ho, e⟩ | ⟨h0, e⟩ | ⟨h0, e⟩ | ⟨h0, e⟩ | ⟨_, e⟩ <;> rw [e] at h
    · injection h with h1 h2
      subst h1 h2
      exact ⟨by rw [hl, List.length_cons]; omega, by rw [ho]; rfl⟩
    · rcases operand2_cases .move bs with ⟨_, e⟩ | ⟨_, _, _, e0, e⟩ <;> rw [e] at h <;> cases h
      rw [e0, h0]; exact ⟨by simp [Instr.length]; omega, rfl⟩
    · rcases operand2_cases .add bs with ⟨_, e⟩ | ⟨_, _, _, e0, e⟩ <;> rw [e] at h <;> cases h
      rw [e0, h0]; exact ⟨by simp [Instr.length]; omega, rfl⟩
    · rcases operand1_cases .start bs with ⟨_, e⟩ | ⟨_, _, e0, e⟩ <;> rw [e] at h <;> cases h
      rw [e0, h0]; exact ⟨by simp [Instr.length]; omega, rfl⟩
    · cases h

/-- An illegal byte is the first one, and is outside the twelve opcodes (R74, R125). -/
theorem decode_illegal (bs : List Byte) (b : Byte) (h : decode bs = .illegal b) :
    bs.head? = some b ∧ ((1 ≤ b.toNat ∧ b.toNat ≤ 15) ∨ 27 ≤ b.toNat) := by
  cases bs with
  | nil => cases h
  | cons b0 bs =>
    rcases decode_shapes b0 bs with ⟨j, _, _, e⟩ | ⟨_, e⟩ | ⟨_, e⟩ | ⟨_, e⟩ | ⟨hb, e⟩ <;> rw [e] at h
    · cases h
    · rcases operand2_cases .move bs with ⟨_, e⟩ | ⟨_, _, _, _, e⟩ <;> rw [e] at h <;> cases h
    · rcases operand2_cases .add bs with ⟨_, e⟩ | ⟨_, _, _, _, e⟩ <;> rw [e] at h <;> cases h
    · rcases operand1_cases .start bs with ⟨_, e⟩ | ⟨_, _, _, e⟩ <;> rw [e] at h <;> cases h
    · cases h
      exact ⟨rfl, hb⟩

end Sys2Proof
end

