-- ==== Sys2Proof/Laws/Sparse.lean ====
section
/-! SUPPORT. The laws of sparse lists: read after write, the canonical form kept by a write, and canonical lists with equal
reads being equal. -/

namespace Sys2Proof.Machine

open Sys2Proof

variable {α : Type}

@[simp] theorem Sparse.get_nil (d : α) (a : Nat) : Sparse.get d [] a = d := rfl

theorem Sparse.get_cons (d : α) (k : Nat) (v : α) (t : List (Nat × α)) (a : Nat) :
    Sparse.get d ((k, v) :: t) a = if k = a then v else Sparse.get d t a := rfl

theorem Sparse.get_erase (d : α) (t : List (Nat × α)) (a b : Nat) :
    Sparse.get d (Sparse.erase t a) b = if b = a then d else Sparse.get d t b := by
  induction t with
  | nil => simp [Sparse.erase, Sparse.get]
  | cons c t ih =>
    obtain ⟨k, v⟩ := c
    unfold Sparse.erase at ih ⊢
    by_cases hk : k = a
    · subst hk
      simp only [List.filter_cons, ne_eq, not_true_eq_false, decide_false, Bool.false_eq_true, ite_false, ih,
        Sparse.get_cons]
      split <;> rename_i h
      · rfl
      · rw [if_neg (Ne.symm h)]
    · simp only [List.filter_cons, ne_eq, hk, not_false_eq_true, decide_true, ite_true, Sparse.get_cons, ih]
      split <;> rename_i h
      · rw [if_neg (h ▸ hk)]
      · rfl

theorem Sparse.get_insert (d : α) (t : List (Nat × α)) (a : Nat) (v : α) (b : Nat)
    (ht : ∀ c ∈ t, c.1 ≠ a) :
    Sparse.get d (Sparse.insert a v t) b = if b = a then v else Sparse.get d t b := by
  induction t with
  | nil => simp [Sparse.insert, Sparse.get_cons, eq_comm]
  | cons c t ih =>
    obtain ⟨k, w⟩ := c
    have hk : k ≠ a := ht (k, w) (by simp)
    have ih := ih fun c hc => ht c (by simp [hc])
    unfold Sparse.insert
    split
    · rw [Sparse.get_cons]
      by_cases e : b = a
      · simp [e]
      · rw [if_neg (Ne.symm e), if_neg e]
    · rw [Sparse.get_cons, ih, Sparse.get_cons]
      split <;> rename_i e
      · rw [if_neg (e ▸ hk)]
      · rfl

theorem Sparse.erase_keys (t : List (Nat × α)) (a : Nat) : ∀ c ∈ Sparse.erase t a, c.1 ≠ a := by
  intro c hc
  simpa using (List.mem_filter.mp hc).2

/-- Read after write: the value written at its key, and every other key as before. It holds of any list. -/
theorem Sparse.get_set [DecidableEq α] (d : α) (t : List (Nat × α)) (a : Nat) (v : α) (b : Nat) :
    Sparse.get d (Sparse.set d t a v) b = if b = a then v else Sparse.get d t b := by
  unfold Sparse.set
  split <;> rename_i hv
  · rw [Sparse.get_erase, hv]
  · rw [Sparse.get_insert d _ a v b (Sparse.erase_keys t a), Sparse.get_erase]
    split <;> rfl

theorem Sparse.wf_iff [DecidableEq α] (d : α) (n : Nat) (t : List (Nat × α)) :
    Sparse.wf d n t = true ↔ t.Pairwise (fun c e => c.1 < e.1) ∧ ∀ c ∈ t, c.1 < n ∧ c.2 ≠ d := by
  simp [Sparse.wf]

theorem Sparse.mem_insert (a : Nat) (v : α) (t : List (Nat × α)) (c : Nat × α) :
    c ∈ Sparse.insert a v t ↔ c = (a, v) ∨ c ∈ t := by
  induction t with
  | nil => simp [Sparse.insert]
  | cons e t ih =>
    unfold Sparse.insert
    split
    · simp
    · simp only [List.mem_cons, ih]
      tauto

theorem Sparse.pairwise_insert (a : Nat) (v : α) (t : List (Nat × α)) (h : t.Pairwise fun c e => c.1 < e.1)
    (ht : ∀ c ∈ t, c.1 ≠ a) : (Sparse.insert a v t).Pairwise fun c e => c.1 < e.1 := by
  induction t with
  | nil => simp [Sparse.insert]
  | cons c t ih =>
    obtain ⟨k, w⟩ := c
    obtain ⟨h1, h2⟩ := List.pairwise_cons.mp h
    unfold Sparse.insert
    split <;> rename_i hk
    · refine List.pairwise_cons.mpr ⟨fun e he => ?_, h⟩
      rcases List.mem_cons.mp he with rfl | he
      · exact hk
      · exact lt_trans hk (h1 e he)
    · have hka : k ≠ a := ht (k, w) (by simp)
      refine List.pairwise_cons.mpr ⟨fun e he => ?_, ih h2 fun c hc => ht c (by simp [hc])⟩
      rcases (Sparse.mem_insert a v t e).mp he with rfl | he
      · show k < a
        omega
      · exact h1 e he

/-- A write below the bound keeps the canonical form. -/
theorem Sparse.wf_set [DecidableEq α] (d : α) (n : Nat) (t : List (Nat × α)) (a : Nat) (v : α) (ha : a < n)
    (h : Sparse.wf d n t = true) : Sparse.wf d n (Sparse.set d t a v) = true := by
  obtain ⟨hp, hm⟩ := (Sparse.wf_iff d n t).mp h
  have hpe : (Sparse.erase t a).Pairwise fun c e => c.1 < e.1 := hp.filter _
  have hme : ∀ c ∈ Sparse.erase t a, c.1 < n ∧ c.2 ≠ d := fun c hc => hm c (List.mem_filter.mp hc).1
  refine (Sparse.wf_iff d n _).mpr ?_
  unfold Sparse.set
  split <;> rename_i hv
  · exact ⟨hpe, hme⟩
  · refine ⟨Sparse.pairwise_insert a v _ hpe (Sparse.erase_keys t a), fun c hc => ?_⟩
    rcases (Sparse.mem_insert a v _ c).mp hc with rfl | hc
    · exact ⟨ha, hv⟩
    · exact hme c hc

/-- A value that is not the unlisted one is listed. -/
theorem Sparse.mem_of_get (d : α) (t : List (Nat × α)) (a : Nat) (h : Sparse.get d t a ≠ d) :
    (a, Sparse.get d t a) ∈ t := by
  induction t with
  | nil => exact absurd rfl h
  | cons c t ih =>
    obtain ⟨k, v⟩ := c
    rw [Sparse.get_cons] at h ⊢
    by_cases e : k = a
    · simp [e]
    · rw [if_neg e] at h ⊢
      exact List.mem_cons_of_mem _ (ih h)

theorem Sparse.get_of_lt_all (d : α) (t : List (Nat × α)) (a : Nat) (h : ∀ c ∈ t, a < c.1) :
    Sparse.get d t a = d := by
  by_contra hne
  have := h _ (Sparse.mem_of_get d t a hne)
  simp at this

/-- Canonical lists with the same values are the same list. -/
theorem Sparse.ext [DecidableEq α] (d : α) (n : Nat) (t u : List (Nat × α)) (ht : Sparse.wf d n t = true)
    (hu : Sparse.wf d n u = true) (h : ∀ a, Sparse.get d t a = Sparse.get d u a) : t = u := by
  obtain ⟨hpt, hmt⟩ := (Sparse.wf_iff d n t).mp ht
  obtain ⟨hpu, hmu⟩ := (Sparse.wf_iff d n u).mp hu
  clear ht hu
  induction t generalizing u with
  | nil =>
    cases u with
    | nil => rfl
    | cons c u =>
      obtain ⟨k, v⟩ := c
      have := h k
      simp only [Sparse.get_nil, Sparse.get_cons, ite_true] at this
      exact absurd this.symm (hmu (k, v) (by simp)).2
  | cons c t ih =>
    obtain ⟨k, v⟩ := c
    cases u with
    | nil =>
      have := h k
      simp only [Sparse.get_nil, Sparse.get_cons, ite_true] at this
      exact absurd this (hmt (k, v) (by simp)).2
    | cons e u =>
      obtain ⟨l, w⟩ := e
      obtain ⟨ht1, ht2⟩ := List.pairwise_cons.mp hpt
      obtain ⟨hu1, hu2⟩ := List.pairwise_cons.mp hpu
      have hv := (hmt (k, v) (by simp)).2
      have hw := (hmu (l, w) (by simp)).2
      have hkl : k = l := by
        rcases lt_trichotomy k l with hlt | rfl | hgt
        · have := h k
          rw [Sparse.get_cons, if_pos rfl, Sparse.get_cons, if_neg (by omega),
            Sparse.get_of_lt_all d u k fun c hc => lt_trans hlt (hu1 c hc)] at this
          exact absurd this hv
        · rfl
        · have := h l
          rw [Sparse.get_cons, if_neg (by omega), Sparse.get_cons, if_pos rfl,
            Sparse.get_of_lt_all d t l fun c hc => lt_trans hgt (ht1 c hc)] at this
          exact absurd this.symm hw
      subst hkl
      have hvw : v = w := by simpa [Sparse.get_cons] using h k
      subst hvw
      have htu : t = u := by
        refine ih u (fun a => ?_) ht2 (fun c hc => hmt c (by simp [hc])) hu2 fun c hc => hmu c (by simp [hc])
        by_cases e : k = a
        · subst e
          rw [Sparse.get_of_lt_all d t k fun c hc => ht1 c hc, Sparse.get_of_lt_all d u k fun c hc => hu1 c hc]
        · have := h a
          rwa [Sparse.get_cons, Sparse.get_cons, if_neg e, if_neg e] at this
      rw [htu]

end Sys2Proof.Machine
end

