-- ==== Sys2Proof/Laws/State.lean ====
section
/-! SUPPORT. What each update of the state does to each field, so that no proof unfolds a record update; and what the
updates that write no memory leave of the slots and the spaces. -/

namespace Sys2Proof.Machine

open Sys2Proof

/-! ### `State.commit` -/

@[simp] theorem State.commit_regs (s : State) : (s.commit).regs = s.regs := rfl
@[simp] theorem State.commit_pc (s : State) : (s.commit).pc = s.pc := rfl
@[simp] theorem State.commit_cur (s : State) : (s.commit).cur = s.cur := rfl
@[simp] theorem State.commit_root (s : State) : (s.commit).root = s.root := rfl
@[simp] theorem State.commit_mt (s : State) : (s.commit).mt = s.mt := rfl
@[simp] theorem State.commit_cs (s : State) : (s.commit).cs = s.cs := rfl
@[simp] theorem State.commit_status (s : State) : (s.commit).status = s.status := rfl
@[simp] theorem State.commit_fault (s : State) : (s.commit).fault = s.fault := rfl
@[simp] theorem State.commit_steps (s : State) : (s.commit).steps = s.steps + 1 := rfl
@[simp] theorem State.commit_params (s : State) : (s.commit).params = s.params := rfl
@[simp] theorem State.commit_depth (s : State) : (s.commit).depth = s.depth := rfl
@[simp] theorem State.commit_slot (s : State) (j : Byte) : (s.commit).slot j = s.slot j := rfl
@[simp] theorem State.commit_memory (s : State) (x : Ctx) : (s.commit).memory x = s.memory x := rfl
@[simp] theorem State.commit_readByte (s : State) (x : Ctx) (a : Nat) : (s.commit).readByte x a = s.readByte x a := rfl

/-! ### `State.advance` -/

@[simp] theorem State.advance_regs (s : State) (n : Nat) : (s.advance n).regs = s.regs := rfl
@[simp] theorem State.advance_pc (s : State) (n : Nat) : (s.advance n).pc = s.pc + n := rfl
@[simp] theorem State.advance_cur (s : State) (n : Nat) : (s.advance n).cur = s.cur := rfl
@[simp] theorem State.advance_root (s : State) (n : Nat) : (s.advance n).root = s.root := rfl
@[simp] theorem State.advance_mt (s : State) (n : Nat) : (s.advance n).mt = s.mt := rfl
@[simp] theorem State.advance_cs (s : State) (n : Nat) : (s.advance n).cs = s.cs := rfl
@[simp] theorem State.advance_status (s : State) (n : Nat) : (s.advance n).status = s.status := rfl
@[simp] theorem State.advance_fault (s : State) (n : Nat) : (s.advance n).fault = s.fault := rfl
@[simp] theorem State.advance_steps (s : State) (n : Nat) : (s.advance n).steps = s.steps := rfl
@[simp] theorem State.advance_params (s : State) (n : Nat) : (s.advance n).params = s.params := rfl
@[simp] theorem State.advance_depth (s : State) (n : Nat) : (s.advance n).depth = s.depth := rfl
@[simp] theorem State.advance_slot (s : State) (n : Nat) (j : Byte) : (s.advance n).slot j = s.slot j := rfl
@[simp] theorem State.advance_memory (s : State) (n : Nat) (x : Ctx) : (s.advance n).memory x = s.memory x := rfl
@[simp] theorem State.advance_readByte (s : State) (n : Nat) (x : Ctx) (a : Nat) : (s.advance n).readByte x a = s.readByte x a := rfl

/-! ### `State.setPc` -/

@[simp] theorem State.setPc_regs (s : State) (a : Nat) : (s.setPc a).regs = s.regs := rfl
@[simp] theorem State.setPc_pc (s : State) (a : Nat) : (s.setPc a).pc = a := rfl
@[simp] theorem State.setPc_cur (s : State) (a : Nat) : (s.setPc a).cur = s.cur := rfl
@[simp] theorem State.setPc_root (s : State) (a : Nat) : (s.setPc a).root = s.root := rfl
@[simp] theorem State.setPc_mt (s : State) (a : Nat) : (s.setPc a).mt = s.mt := rfl
@[simp] theorem State.setPc_cs (s : State) (a : Nat) : (s.setPc a).cs = s.cs := rfl
@[simp] theorem State.setPc_status (s : State) (a : Nat) : (s.setPc a).status = s.status := rfl
@[simp] theorem State.setPc_fault (s : State) (a : Nat) : (s.setPc a).fault = s.fault := rfl
@[simp] theorem State.setPc_steps (s : State) (a : Nat) : (s.setPc a).steps = s.steps := rfl
@[simp] theorem State.setPc_params (s : State) (a : Nat) : (s.setPc a).params = s.params := rfl
@[simp] theorem State.setPc_depth (s : State) (a : Nat) : (s.setPc a).depth = s.depth := rfl
@[simp] theorem State.setPc_slot (s : State) (a : Nat) (j : Byte) : (s.setPc a).slot j = s.slot j := rfl
@[simp] theorem State.setPc_memory (s : State) (a : Nat) (x : Ctx) : (s.setPc a).memory x = s.memory x := rfl
@[simp] theorem State.setPc_readByte (s : State) (p : Nat) (x : Ctx) (a : Nat) : (s.setPc p).readByte x a = s.readByte x a := rfl

/-! ### `State.setStatus` -/

@[simp] theorem State.setStatus_regs (s : State) (st : Status) : (s.setStatus st).regs = s.regs := rfl
@[simp] theorem State.setStatus_pc (s : State) (st : Status) : (s.setStatus st).pc = s.pc := rfl
@[simp] theorem State.setStatus_cur (s : State) (st : Status) : (s.setStatus st).cur = s.cur := rfl
@[simp] theorem State.setStatus_root (s : State) (st : Status) : (s.setStatus st).root = s.root := rfl
@[simp] theorem State.setStatus_mt (s : State) (st : Status) : (s.setStatus st).mt = s.mt := rfl
@[simp] theorem State.setStatus_cs (s : State) (st : Status) : (s.setStatus st).cs = s.cs := rfl
@[simp] theorem State.setStatus_status (s : State) (st : Status) : (s.setStatus st).status = st := rfl
@[simp] theorem State.setStatus_fault (s : State) (st : Status) : (s.setStatus st).fault = s.fault := rfl
@[simp] theorem State.setStatus_steps (s : State) (st : Status) : (s.setStatus st).steps = s.steps := rfl
@[simp] theorem State.setStatus_params (s : State) (st : Status) : (s.setStatus st).params = s.params := rfl
@[simp] theorem State.setStatus_depth (s : State) (st : Status) : (s.setStatus st).depth = s.depth := rfl
@[simp] theorem State.setStatus_slot (s : State) (st : Status) (j : Byte) : (s.setStatus st).slot j = s.slot j := rfl
@[simp] theorem State.setStatus_memory (s : State) (st : Status) (x : Ctx) : (s.setStatus st).memory x = s.memory x := rfl
@[simp] theorem State.setStatus_readByte (s : State) (st : Status) (x : Ctx) (a : Nat) : (s.setStatus st).readByte x a = s.readByte x a := rfl

/-! ### `State.cancel` -/

@[simp] theorem State.cancel_regs (s : State) : (s.cancel).regs = s.regs := rfl
@[simp] theorem State.cancel_pc (s : State) : (s.cancel).pc = s.pc := rfl
@[simp] theorem State.cancel_cur (s : State) : (s.cancel).cur = s.cur := rfl
@[simp] theorem State.cancel_root (s : State) : (s.cancel).root = s.root := rfl
@[simp] theorem State.cancel_mt (s : State) : (s.cancel).mt = s.mt := rfl
@[simp] theorem State.cancel_cs (s : State) : (s.cancel).cs = s.cs := rfl
@[simp] theorem State.cancel_status (s : State) : (s.cancel).status = .cancelled := rfl
@[simp] theorem State.cancel_fault (s : State) : (s.cancel).fault = s.fault := rfl
@[simp] theorem State.cancel_steps (s : State) : (s.cancel).steps = s.steps := rfl
@[simp] theorem State.cancel_params (s : State) : (s.cancel).params = s.params := rfl
@[simp] theorem State.cancel_depth (s : State) : (s.cancel).depth = s.depth := rfl
@[simp] theorem State.cancel_slot (s : State) (j : Byte) : (s.cancel).slot j = s.slot j := rfl
@[simp] theorem State.cancel_memory (s : State) (x : Ctx) : (s.cancel).memory x = s.memory x := rfl
@[simp] theorem State.cancel_readByte (s : State) (x : Ctx) (a : Nat) : (s.cancel).readByte x a = s.readByte x a := rfl

/-! ### `State.faultEntry` -/

@[simp] theorem State.faultEntry_regs (s : State) (k : FaultKind) (p : Nat) (c : Ctx) (i : Nat) : (s.faultEntry k p c i).regs = s.regs := rfl
@[simp] theorem State.faultEntry_pc (s : State) (k : FaultKind) (p : Nat) (c : Ctx) (i : Nat) : (s.faultEntry k p c i).pc = s.pc := rfl
@[simp] theorem State.faultEntry_cur (s : State) (k : FaultKind) (p : Nat) (c : Ctx) (i : Nat) : (s.faultEntry k p c i).cur = s.cur := rfl
@[simp] theorem State.faultEntry_root (s : State) (k : FaultKind) (p : Nat) (c : Ctx) (i : Nat) : (s.faultEntry k p c i).root = s.root := rfl
@[simp] theorem State.faultEntry_mt (s : State) (k : FaultKind) (p : Nat) (c : Ctx) (i : Nat) : (s.faultEntry k p c i).mt = s.mt := rfl
@[simp] theorem State.faultEntry_cs (s : State) (k : FaultKind) (p : Nat) (c : Ctx) (i : Nat) : (s.faultEntry k p c i).cs = s.cs := rfl
@[simp] theorem State.faultEntry_status (s : State) (k : FaultKind) (p : Nat) (c : Ctx) (i : Nat) : (s.faultEntry k p c i).status = .faulted := rfl
@[simp] theorem State.faultEntry_fault (s : State) (k : FaultKind) (p : Nat) (c : Ctx) (i : Nat) : (s.faultEntry k p c i).fault = ⟨some k, p, c, i⟩ := rfl
@[simp] theorem State.faultEntry_steps (s : State) (k : FaultKind) (p : Nat) (c : Ctx) (i : Nat) : (s.faultEntry k p c i).steps = s.steps := rfl
@[simp] theorem State.faultEntry_params (s : State) (k : FaultKind) (p : Nat) (c : Ctx) (i : Nat) : (s.faultEntry k p c i).params = s.params := rfl
@[simp] theorem State.faultEntry_depth (s : State) (k : FaultKind) (p : Nat) (c : Ctx) (i : Nat) : (s.faultEntry k p c i).depth = s.depth := rfl
@[simp] theorem State.faultEntry_slot (s : State) (k : FaultKind) (p : Nat) (c : Ctx) (i : Nat) (j : Byte) : (s.faultEntry k p c i).slot j = s.slot j := rfl
@[simp] theorem State.faultEntry_memory (s : State) (k : FaultKind) (p : Nat) (c : Ctx) (i : Nat) (x : Ctx) : (s.faultEntry k p c i).memory x = s.memory x := rfl
@[simp] theorem State.faultEntry_readByte (s : State) (k : FaultKind) (p : Nat) (c : Ctx) (i : Nat) (x : Ctx) (a : Nat) : (s.faultEntry k p c i).readByte x a = s.readByte x a := rfl

/-! ### `State.raise` -/

@[simp] theorem State.raise_regs (s : State) (k : FaultKind) (i : Nat) : (s.raise k i).regs = s.regs := rfl
@[simp] theorem State.raise_pc (s : State) (k : FaultKind) (i : Nat) : (s.raise k i).pc = s.pc := rfl
@[simp] theorem State.raise_cur (s : State) (k : FaultKind) (i : Nat) : (s.raise k i).cur = s.cur := rfl
@[simp] theorem State.raise_root (s : State) (k : FaultKind) (i : Nat) : (s.raise k i).root = s.root := rfl
@[simp] theorem State.raise_mt (s : State) (k : FaultKind) (i : Nat) : (s.raise k i).mt = s.mt := rfl
@[simp] theorem State.raise_cs (s : State) (k : FaultKind) (i : Nat) : (s.raise k i).cs = s.cs := rfl
@[simp] theorem State.raise_status (s : State) (k : FaultKind) (i : Nat) : (s.raise k i).status = .faulted := rfl
@[simp] theorem State.raise_fault (s : State) (k : FaultKind) (i : Nat) : (s.raise k i).fault = ⟨some k, s.pc, s.cur, i⟩ := rfl
@[simp] theorem State.raise_steps (s : State) (k : FaultKind) (i : Nat) : (s.raise k i).steps = s.steps := rfl
@[simp] theorem State.raise_params (s : State) (k : FaultKind) (i : Nat) : (s.raise k i).params = s.params := rfl
@[simp] theorem State.raise_depth (s : State) (k : FaultKind) (i : Nat) : (s.raise k i).depth = s.depth := rfl
@[simp] theorem State.raise_slot (s : State) (k : FaultKind) (i : Nat) (j : Byte) : (s.raise k i).slot j = s.slot j := rfl
@[simp] theorem State.raise_memory (s : State) (k : FaultKind) (i : Nat) (x : Ctx) : (s.raise k i).memory x = s.memory x := rfl
@[simp] theorem State.raise_readByte (s : State) (k : FaultKind) (i : Nat) (x : Ctx) (a : Nat) : (s.raise k i).readByte x a = s.readByte x a := rfl

/-! ### `State.writeReg` -/

@[simp] theorem State.writeReg_regs (s : State) (r : Reg) (v : Byte) : (s.writeReg r v).regs = s.regs.set r v := rfl
@[simp] theorem State.writeReg_pc (s : State) (r : Reg) (v : Byte) : (s.writeReg r v).pc = s.pc := rfl
@[simp] theorem State.writeReg_cur (s : State) (r : Reg) (v : Byte) : (s.writeReg r v).cur = s.cur := rfl
@[simp] theorem State.writeReg_root (s : State) (r : Reg) (v : Byte) : (s.writeReg r v).root = s.root := rfl
@[simp] theorem State.writeReg_mt (s : State) (r : Reg) (v : Byte) : (s.writeReg r v).mt = s.mt := rfl
@[simp] theorem State.writeReg_cs (s : State) (r : Reg) (v : Byte) : (s.writeReg r v).cs = s.cs := rfl
@[simp] theorem State.writeReg_status (s : State) (r : Reg) (v : Byte) : (s.writeReg r v).status = s.status := rfl
@[simp] theorem State.writeReg_fault (s : State) (r : Reg) (v : Byte) : (s.writeReg r v).fault = s.fault := rfl
@[simp] theorem State.writeReg_steps (s : State) (r : Reg) (v : Byte) : (s.writeReg r v).steps = s.steps := rfl
@[simp] theorem State.writeReg_params (s : State) (r : Reg) (v : Byte) : (s.writeReg r v).params = s.params := rfl
@[simp] theorem State.writeReg_depth (s : State) (r : Reg) (v : Byte) : (s.writeReg r v).depth = s.depth := rfl
@[simp] theorem State.writeReg_slot (s : State) (r : Reg) (v : Byte) (j : Byte) : (s.writeReg r v).slot j = s.slot j := rfl
@[simp] theorem State.writeReg_memory (s : State) (r : Reg) (v : Byte) (x : Ctx) : (s.writeReg r v).memory x = s.memory x := rfl
@[simp] theorem State.writeReg_readByte (s : State) (r : Reg) (v : Byte) (x : Ctx) (a : Nat) : (s.writeReg r v).readByte x a = s.readByte x a := rfl

/-! ### `State.enterModule` -/

@[simp] theorem State.enterModule_regs (s : State) (m : Byte) : (s.enterModule m).regs = Regs.zero := rfl
@[simp] theorem State.enterModule_pc (s : State) (m : Byte) : (s.enterModule m).pc = (s.slot m).bodyStart := rfl
@[simp] theorem State.enterModule_cur (s : State) (m : Byte) : (s.enterModule m).cur = .mod m := rfl
@[simp] theorem State.enterModule_root (s : State) (m : Byte) : (s.enterModule m).root = s.root := rfl
@[simp] theorem State.enterModule_mt (s : State) (m : Byte) : (s.enterModule m).mt = s.mt.setSlot m ((s.slot m).entered s.cur s.regs) := rfl
@[simp] theorem State.enterModule_cs (s : State) (m : Byte) : (s.enterModule m).cs = ⟨s.pc + 2, s.cur, s.regs⟩ :: s.cs := rfl
@[simp] theorem State.enterModule_status (s : State) (m : Byte) : (s.enterModule m).status = s.status := rfl
@[simp] theorem State.enterModule_fault (s : State) (m : Byte) : (s.enterModule m).fault = s.fault := rfl
@[simp] theorem State.enterModule_steps (s : State) (m : Byte) : (s.enterModule m).steps = s.steps := rfl
@[simp] theorem State.enterModule_params (s : State) (m : Byte) : (s.enterModule m).params = s.params := rfl
@[simp] theorem State.enterModule_depth (s : State) (m : Byte) : (s.enterModule m).depth = s.depth + 1 := rfl

/-! ### `State.returnTo` -/

@[simp] theorem State.returnTo_regs (s : State) (f : Frame) (rest : List Frame) : (s.returnTo f rest).regs = f.saved := rfl
@[simp] theorem State.returnTo_pc (s : State) (f : Frame) (rest : List Frame) : (s.returnTo f rest).pc = f.retPc := rfl
@[simp] theorem State.returnTo_cur (s : State) (f : Frame) (rest : List Frame) : (s.returnTo f rest).cur = f.retCtx := rfl
@[simp] theorem State.returnTo_root (s : State) (f : Frame) (rest : List Frame) : (s.returnTo f rest).root = s.root := rfl
@[simp] theorem State.returnTo_mt (s : State) (f : Frame) (rest : List Frame) : (s.returnTo f rest).mt = s.mt := rfl
@[simp] theorem State.returnTo_cs (s : State) (f : Frame) (rest : List Frame) : (s.returnTo f rest).cs = rest := rfl
@[simp] theorem State.returnTo_status (s : State) (f : Frame) (rest : List Frame) : (s.returnTo f rest).status = s.status := rfl
@[simp] theorem State.returnTo_fault (s : State) (f : Frame) (rest : List Frame) : (s.returnTo f rest).fault = s.fault := rfl
@[simp] theorem State.returnTo_steps (s : State) (f : Frame) (rest : List Frame) : (s.returnTo f rest).steps = s.steps := rfl
@[simp] theorem State.returnTo_params (s : State) (f : Frame) (rest : List Frame) : (s.returnTo f rest).params = s.params := rfl
@[simp] theorem State.returnTo_depth (s : State) (f : Frame) (rest : List Frame) : (s.returnTo f rest).depth = rest.length := rfl
@[simp] theorem State.returnTo_slot (s : State) (f : Frame) (rest : List Frame) (j : Byte) : (s.returnTo f rest).slot j = s.slot j := rfl
@[simp] theorem State.returnTo_memory (s : State) (f : Frame) (rest : List Frame) (x : Ctx) : (s.returnTo f rest).memory x = s.memory x := rfl
@[simp] theorem State.returnTo_readByte (s : State) (f : Frame) (rest : List Frame) (x : Ctx) (a : Nat) : (s.returnTo f rest).readByte x a = s.readByte x a := rfl

/-! ### `State.startRun` -/

@[simp] theorem State.startRun_regs (s : State) (m : Memory) (t : ModuleTable) : (s.startRun m t).regs = Regs.zero := rfl
@[simp] theorem State.startRun_pc (s : State) (m : Memory) (t : ModuleTable) : (s.startRun m t).pc = 0 := rfl
@[simp] theorem State.startRun_cur (s : State) (m : Memory) (t : ModuleTable) : (s.startRun m t).cur = .root := rfl
@[simp] theorem State.startRun_root (s : State) (m : Memory) (t : ModuleTable) : (s.startRun m t).root = m := rfl
@[simp] theorem State.startRun_mt (s : State) (m : Memory) (t : ModuleTable) : (s.startRun m t).mt = t := rfl
@[simp] theorem State.startRun_cs (s : State) (m : Memory) (t : ModuleTable) : (s.startRun m t).cs = [] := rfl
@[simp] theorem State.startRun_status (s : State) (m : Memory) (t : ModuleTable) : (s.startRun m t).status = .running := rfl
@[simp] theorem State.startRun_fault (s : State) (m : Memory) (t : ModuleTable) : (s.startRun m t).fault = FaultRecord.clear := rfl
@[simp] theorem State.startRun_steps (s : State) (m : Memory) (t : ModuleTable) : (s.startRun m t).steps = 0 := rfl
@[simp] theorem State.startRun_params (s : State) (m : Memory) (t : ModuleTable) : (s.startRun m t).params = s.params := rfl
@[simp] theorem State.startRun_depth (s : State) (m : Memory) (t : ModuleTable) : (s.startRun m t).depth = 0 := rfl

/-! ### `State.loadFailed` -/

@[simp] theorem State.loadFailed_regs (s : State) (m : Memory) (f : LoadFault) : (s.loadFailed m f).regs = s.regs := rfl
@[simp] theorem State.loadFailed_pc (s : State) (m : Memory) (f : LoadFault) : (s.loadFailed m f).pc = s.pc := rfl
@[simp] theorem State.loadFailed_cur (s : State) (m : Memory) (f : LoadFault) : (s.loadFailed m f).cur = s.cur := rfl
@[simp] theorem State.loadFailed_root (s : State) (m : Memory) (f : LoadFault) : (s.loadFailed m f).root = m := rfl
@[simp] theorem State.loadFailed_mt (s : State) (m : Memory) (f : LoadFault) : (s.loadFailed m f).mt = [] := rfl
@[simp] theorem State.loadFailed_cs (s : State) (m : Memory) (f : LoadFault) : (s.loadFailed m f).cs = s.cs := rfl
@[simp] theorem State.loadFailed_status (s : State) (m : Memory) (f : LoadFault) : (s.loadFailed m f).status = .faulted := rfl
@[simp] theorem State.loadFailed_fault (s : State) (m : Memory) (f : LoadFault) : (s.loadFailed m f).fault = ⟨some f.kind, f.pc, .root, f.info⟩ := rfl
@[simp] theorem State.loadFailed_steps (s : State) (m : Memory) (f : LoadFault) : (s.loadFailed m f).steps = s.steps := rfl
@[simp] theorem State.loadFailed_params (s : State) (m : Memory) (f : LoadFault) : (s.loadFailed m f).params = s.params := rfl
@[simp] theorem State.loadFailed_depth (s : State) (m : Memory) (f : LoadFault) : (s.loadFailed m f).depth = s.depth := rfl

/-! ### Records -/

@[simp] theorem ModuleRecord.entered_id (r : ModuleRecord) (c : Ctx) (x : Regs) : (r.entered c x).id = r.id := rfl
@[simp] theorem ModuleRecord.entered_occupied (r : ModuleRecord) (c : Ctx) (x : Regs) :
    (r.entered c x).occupied = r.occupied := rfl
@[simp] theorem ModuleRecord.entered_privateMemory (r : ModuleRecord) (c : Ctx) (x : Regs) :
    (r.entered c x).privateMemory = r.privateMemory := rfl
@[simp] theorem ModuleRecord.entered_registerCache (r : ModuleRecord) (c : Ctx) (x : Regs) :
    (r.entered c x).registerCache = x := rfl
@[simp] theorem ModuleRecord.entered_caller (r : ModuleRecord) (c : Ctx) (x : Regs) :
    (r.entered c x).caller = callerOf c := rfl
@[simp] theorem ModuleRecord.entered_entry (r : ModuleRecord) (c : Ctx) (x : Regs) :
    (r.entered c x).entry = true := rfl
@[simp] theorem ModuleRecord.entered_entryLocation (r : ModuleRecord) (c : Ctx) (x : Regs) :
    (r.entered c x).entryLocation = r.bodyStart := rfl
@[simp] theorem ModuleRecord.entered_bodyStart (r : ModuleRecord) (c : Ctx) (x : Regs) :
    (r.entered c x).bodyStart = r.bodyStart := rfl

/-! ### Views -/

@[simp] theorem State.memory_root (s : State) : s.memory .root = s.root := rfl
@[simp] theorem State.memory_mod (s : State) (m : Byte) : s.memory (.mod m) = (s.slot m).privateMemory := rfl

end Sys2Proof.Machine
end

