-- ==== Sys2Proof/Laws/Memory.lean ====
section
/-! SUPPORT. The laws of memories and of the Module Table: read after write, the canonical form kept by every operation,
and what the terminator search and the copy do. -/

namespace Sys2Proof.Machine

open Sys2Proof

/-! ### Memory -/

theorem Memory.get_set (m : Memory) (a : Nat) (v : Byte) (b : Nat) :
    (Memory.set m a v).get b = if b = a then v else Memory.get m b := Sparse.get_set _ _ _ _ _

@[simp] theorem Memory.get_clear (a : Nat) : Memory.get Memory.clear a = 0x00#8 := rfl

@[simp] theorem Memory.get_nil (a : Nat) : Memory.get [] a = 0x00#8 := rfl

/-- A write of a cell that exists keeps the canonical form. -/
theorem Memory.wf_set (m : Memory) (a : Nat) (v : Byte) (ha : a < 256) (h : Memory.wf m = true) :
    (Memory.set m a v).wf = true := Sparse.wf_set _ _ _ _ _ ha h

@[simp] theorem Memory.wf_nil : Memory.wf [] = true := rfl

@[simp] theorem Memory.wf_clear : Memory.wf Memory.clear = true := rfl

theorem Memory.wf_write (m w : Memory) (a : Nat) (v : Byte) (h : Memory.wf m = true)
    (hw : Memory.write m a v = some w) : Memory.wf w = true := by
  unfold Memory.write at hw
  split at hw <;> rename_i ha
  · rw [← Option.some.inj hw]
    exact Memory.wf_set m a v ha h
  · exact nomatch hw

/-- Canonical memories that read alike are equal. -/
theorem Memory.ext (m n : Memory) (hm : Memory.wf m = true) (hn : Memory.wf n = true)
    (h : ∀ a, Memory.get m a = Memory.get n a) : m = n := Sparse.ext _ _ _ _ hm hn h

/-- A cell beyond 255 of a canonical memory reads 0x00: it does not exist. -/
theorem Memory.get_beyond (m : Memory) (hm : Memory.wf m = true) (a : Nat) (ha : 256 ≤ a) : Memory.get m a = 0x00#8 := by
  by_contra hne
  have := (((Sparse.wf_iff _ _ _).mp hm).2 _ (Sparse.mem_of_get _ m a hne)).1
  simp only [memSize] at this
  omega

theorem Memory.wf_place (m : Memory) (a : Nat) (bs : List Byte) (h : Memory.wf m = true) :
    (Memory.place m a bs).wf = true := by
  induction bs generalizing m a with
  | nil => exact h
  | cons b bs ih =>
    refine ih _ _ ?_
    cases e : Memory.write m a b with
    | none => exact h
    | some w => exact Memory.wf_write m w a b h e

theorem Memory.ofBytesAt_cons (a : Nat) (v : Byte) (bs : List Byte) :
    Memory.ofBytesAt a (v :: bs) =
      if v = 0x00#8 then Memory.ofBytesAt (a + 1) bs else (a, v) :: Memory.ofBytesAt (a + 1) bs := rfl

/-- What an image holds: its bytes from `a` on, 0x00 elsewhere. -/
theorem Memory.get_ofBytesAt (bs : List Byte) (a b : Nat) :
    (Memory.ofBytesAt a bs).get b = if a ≤ b then bs.getD (b - a) 0x00#8 else 0x00#8 := by
  induction bs generalizing a with
  | nil => simp [Memory.ofBytesAt]
  | cons v bs ih =>
    have key : Memory.get (Memory.ofBytesAt a (v :: bs)) b =
        if a = b then v else (Memory.ofBytesAt (a + 1) bs).get b := by
      rw [Memory.ofBytesAt_cons]
      split <;> rename_i hv
      · subst hv
        split <;> rename_i e
        · rw [ih, if_neg (by omega)]
        · rfl
      · rfl
    rw [key, ih]
    by_cases e : a = b
    · subst e; simp
    · rw [if_neg e]
      by_cases h : a ≤ b
      · obtain ⟨d, rfl⟩ : ∃ d, b = a + 1 + d := ⟨b - (a + 1), by omega⟩
        rw [if_pos (by omega), if_pos h, show a + 1 + d - a = d + 1 by omega]
        simp
      · rw [if_neg h, if_neg (by omega)]

theorem Memory.keys_ofBytesAt (bs : List Byte) (a : Nat) :
    ∀ c ∈ Memory.ofBytesAt a bs, a ≤ c.1 ∧ c.1 < a + bs.length ∧ c.2 ≠ 0x00#8 := by
  induction bs generalizing a with
  | nil => simp [Memory.ofBytesAt]
  | cons v bs ih =>
    intro c hc
    rw [Memory.ofBytesAt_cons] at hc
    split at hc <;> rename_i hv
    · have := ih (a + 1) c hc
      simp only [List.length_cons]
      exact ⟨by omega, by omega, this.2.2⟩
    · rcases List.mem_cons.mp hc with rfl | hc
      · exact ⟨le_refl _, by simp, hv⟩
      · have := ih (a + 1) c hc
        simp only [List.length_cons]
        exact ⟨by omega, by omega, this.2.2⟩

theorem Memory.pairwise_ofBytesAt (bs : List Byte) (a : Nat) :
    (Memory.ofBytesAt a bs).Pairwise fun c e => c.1 < e.1 := by
  induction bs generalizing a with
  | nil => exact List.Pairwise.nil
  | cons v bs ih =>
    rw [Memory.ofBytesAt_cons]
    split
    · exact ih _
    · exact List.pairwise_cons.mpr ⟨fun c hc => (Memory.keys_ofBytesAt bs (a + 1) c hc).1, ih _⟩

/-- An image of at most 256 bytes is canonical. -/
theorem Memory.wf_ofBytesAt (bs : List Byte) (h : bs.length ≤ 256) : (Memory.ofBytesAt 0 bs).wf = true := by
  refine (Sparse.wf_iff _ _ _).mpr ⟨Memory.pairwise_ofBytesAt bs 0, fun c hc => ?_⟩
  have := Memory.keys_ofBytesAt bs 0 c hc
  refine ⟨?_, this.2.2⟩
  simp only [memSize]
  omega

/-- The copy writes exactly the given addresses (R55). -/
theorem get_copyBytes (src : Memory) (as : List Nat) (dst : Memory) (b : Nat) :
    (copyBytes src as dst).get b = if b ∈ as then src.get b else dst.get b := by
  induction as generalizing dst with
  | nil => simp [copyBytes]
  | cons a as ih =>
    rw [copyBytes, ih, Memory.get_set]
    by_cases h : b ∈ as
    · simp [h]
    · by_cases e : b = a <;> simp [h, e]

theorem wf_copyBytes (src : Memory) (as : List Nat) (dst : Memory) (h : dst.wf = true) (ha : ∀ a ∈ as, a < 256) :
    (copyBytes src as dst).wf = true := by
  induction as generalizing dst with
  | nil => exact h
  | cons a as ih =>
    exact ih _ (Memory.wf_set dst a _ (ha a (by simp)) h) fun b hb => ha b (by simp [hb])

/-! ### The terminator search (R76, R115, R166) -/

theorem findRet_eq_some_iff (m : Memory) (a t : Nat) :
    findRet m a = some t ↔
      a ≤ t ∧ t ≤ 255 ∧ m.get t = opRet ∧ ∀ x, a ≤ x → x < t → m.get x ≠ opRet := by
  unfold findRet
  rw [List.find?_range'_eq_some]
  simp only [memSize, List.mem_range'_1, decide_eq_true_eq, Bool.not_eq_true', decide_eq_false_iff_not]
  constructor
  · rintro ⟨h1, ⟨h2, h3⟩, h4⟩
    exact ⟨h2, by omega, h1, h4⟩
  · rintro ⟨h1, h2, h3, h4⟩
    exact ⟨h3, ⟨h1, by omega⟩, h4⟩

theorem findRet_eq_none_iff (m : Memory) (a : Nat) :
    findRet m a = none ↔ ∀ x, a ≤ x → x ≤ 255 → m.get x ≠ opRet := by
  unfold findRet
  rw [List.find?_eq_none]
  simp only [memSize, List.mem_range'_1, decide_eq_true_eq, and_imp]
  exact ⟨fun h x h1 h2 => h x h1 (by omega), fun h x h1 h2 => h x h1 (by omega)⟩

/-! ### The Module Table -/

theorem ModuleTable.slot_setSlot (t : ModuleTable) (m : Byte) (r : ModuleRecord) (k : Byte) :
    (ModuleTable.setSlot t m r).slot k = if k = m then r else ModuleTable.slot t k := by
  unfold ModuleTable.slot ModuleTable.setSlot
  rw [Sparse.get_set]
  by_cases e : k = m
  · simp [e]
  · rw [if_neg e, if_neg fun h => e (BitVec.eq_of_toNat_eq h)]

@[simp] theorem ModuleTable.slot_nil (m : Byte) : ModuleTable.slot [] m = ModuleRecord.empty := rfl

@[simp] theorem ModuleTable.wf_nil : ModuleTable.wf [] = true := rfl

/-- A slot of a canonical table holds a canonical private memory. -/
theorem ModuleTable.wf_slot (t : ModuleTable) (h : ModuleTable.wf t = true) (m : Byte) :
    (ModuleTable.slot t m).privateMemory.wf = true := by
  by_cases e : ModuleTable.slot t m = ModuleRecord.empty
  · rw [e]; rfl
  · have hm := Sparse.mem_of_get ModuleRecord.empty t m.toNat e
    simp only [ModuleTable.wf, Bool.and_eq_true, List.all_eq_true] at h
    exact h.2 _ hm

/-- Writing a record with a canonical private memory keeps the table canonical. -/
theorem ModuleTable.wf_setSlot (t : ModuleTable) (m : Byte) (r : ModuleRecord) (h : ModuleTable.wf t = true)
    (hr : r.privateMemory.wf = true) : (ModuleTable.setSlot t m r).wf = true := by
  simp only [ModuleTable.wf, Bool.and_eq_true, List.all_eq_true] at h ⊢
  refine ⟨Sparse.wf_set _ _ _ _ _ m.isLt h.1, fun c hc => ?_⟩
  unfold ModuleTable.setSlot Sparse.set at hc
  split at hc
  · exact h.2 c (List.mem_filter.mp hc).1
  · rcases (Sparse.mem_insert _ _ _ c).mp hc with rfl | hc
    · exact hr
    · exact h.2 c (List.mem_filter.mp hc).1

/-! ### Slots and spaces after START -/

theorem State.enterModule_slot (s : State) (m k : Byte) :
    (s.enterModule m).slot k = if k = m then (s.slot m).entered s.cur s.regs else s.slot k :=
  ModuleTable.slot_setSlot _ _ _ _

/-- START writes no byte of any space. -/
@[simp] theorem State.enterModule_memory (s : State) (m : Byte) (c : Ctx) :
    (s.enterModule m).memory c = s.memory c := by
  cases c with
  | root => rfl
  | mod k =>
    rw [State.memory_mod, State.memory_mod, State.enterModule_slot]
    split <;> rename_i e
    · rw [e]; rfl
    · rfl

@[simp] theorem State.enterModule_readByte (s : State) (m : Byte) (c : Ctx) (a : Nat) :
    (s.enterModule m).readByte c a = s.readByte c a := by
  unfold State.readByte
  rw [State.enterModule_memory]

end Sys2Proof.Machine
end

