-- ==== Sys2Proof/Laws/Operands.lean ====
section
/-! SUPPORT. The register operands: which bytes name registers, and the register file's laws (spec/10_state.md R21 to R24). -/

namespace Sys2Proof.Machine

open Sys2Proof

theorem regOfByte_eq_some_iff (b : Byte) (r : Reg) : regOfByte b = some r ↔ b = byteOfReg r := by
  cases r <;> unfold regOfByte byteOfReg <;> split_ifs <;> simp_all

theorem regOfByte_eq_none_iff_ne (b : Byte) : regOfByte b = none ↔ ∀ r, b ≠ byteOfReg r := by
  rw [Option.eq_none_iff_forall_ne_some]
  exact forall_congr' fun r => not_congr (regOfByte_eq_some_iff b r)

theorem Regs.get_set (x : Regs) (r q : Reg) (v : Byte) : (x.set r v).get q = if q = r then v else x.get q := by
  cases r <;> cases q <;> rfl

/-- The register file by identifier byte after a write: the written one, and every other as before. -/
theorem Regs.getByte_set (x : Regs) (r : Reg) (v q : Byte) :
    (x.set r v).getByte q = if q = byteOfReg r then some v else x.getByte q := by
  unfold Regs.getByte
  cases h : regOfByte q with
  | none => simp [(regOfByte_eq_none_iff_ne q).mp h r]
  | some p =>
    rw [(regOfByte_eq_some_iff q p).mp h]
    cases p <;> cases r <;> rfl

/-- What `withReg` answers when it answers a next state. -/
theorem withReg_next (b : Byte) (s t : State) (k : Reg → Host.Outcome State Fault Refusal) (h : withReg b s k = .next t) :
    (regOfByte b = none ∧ t = s.raise .invalidRegister b.toNat) ∨ ∃ r, regOfByte b = some r ∧ k r = .next t := by
  unfold withReg at h
  split at h <;> rename_i e
  · injection h with h
    exact .inl ⟨e, h.symm⟩
  · exact .inr ⟨_, e, h⟩

theorem withReg_some (b : Byte) (s : State) (k : Reg → Host.Outcome State Fault Refusal) (r : Reg)
    (h : regOfByte b = some r) : withReg b s k = k r := by simp [withReg, h]

theorem withReg_none (b : Byte) (s : State) (k : Reg → Host.Outcome State Fault Refusal) (h : regOfByte b = none) :
    withReg b s k = .next (s.raise .invalidRegister b.toNat) := by simp [withReg, h]

end Sys2Proof.Machine
end

