-- ==== Sys2Proof/Laws/Step.lean ====
section
/-! SUPPORT. What an instruction and a step can do, said once: `Effect` lists every next state of `exec`, `step_cases` every
next state of `step`. Later proofs split on these and unfold neither. -/

namespace Sys2Proof.Machine

open Sys2Proof

/-- Every next state `exec` can answer, by instruction (spec/40_cycle.md R96). -/
inductive Effect (s : State) : Instr → State → Prop where
  | nop : Effect s .nop (s.advance 1).commit
  | move {reg imm : Byte} {r : Reg} (h : regOfByte reg = some r) :
      Effect s (.move reg imm) ((s.writeReg r imm).advance 3).commit
  | moveBad {reg imm : Byte} (h : regOfByte reg = none) :
      Effect s (.move reg imm) (s.raise .invalidRegister reg.toNat)
  | add {dst src : Byte} {d r : Reg} (hd : regOfByte dst = some d) (hr : regOfByte src = some r) :
      Effect s (.add dst src) ((s.writeReg d (addByte (s.regs.get d) (s.regs.get r))).advance 3).commit
  | addBadDst {dst src : Byte} (h : regOfByte dst = none) :
      Effect s (.add dst src) (s.raise .invalidRegister dst.toNat)
  | addBadSrc {dst src : Byte} {d : Reg} (hd : regOfByte dst = some d) (h : regOfByte src = none) :
      Effect s (.add dst src) (s.raise .invalidRegister src.toNat)
  | startUnknown {m : Byte} (h : (s.slot m).occupied = false) :
      Effect s (.start m) (s.raise .unknownModule m.toNat)
  | startExhausted {m : Byte} (h : (s.slot m).occupied = true) (hd : s.params.maxDepth ≤ s.depth) :
      Effect s (.start m) (s.raise .callStackExhausted m.toNat)
  | start {m : Byte} (h : (s.slot m).occupied = true) (hd : s.depth < s.params.maxDepth) :
      Effect s (.start m) (s.enterModule m).commit
  | retDone (h : s.cur = .root) : Effect s .ret (s.setStatus .done).commit
  | ret {m : Byte} {f : Frame} {rest : List Frame} (h : s.cur = .mod m) (hc : s.cs = f :: rest) :
      Effect s .ret (s.returnTo f rest).commit
  | halt : Effect s .halt (s.setStatus .halted).commit
  | skip {t : Nat} (h : s.cur = .root) (ht : findRet s.root (s.pc + 2) = some t) :
      Effect s .moduleMark (s.setPc (t + 1)).commit
  | skipBad (h : s.cur = .root) (ht : findRet s.root (s.pc + 2) = none) :
      Effect s .moduleMark (s.raise .malformedModule (if s.pc ≤ 254 then (s.root.get (s.pc + 1)).toNat else 256))
  | nested {m : Byte} (h : s.cur = .mod m) : Effect s .moduleMark (s.raise .malformedModule m.toNat)
  | run : Effect s .run (s.raise .unknownOpcode opRun.toNat)
  | cid : Effect s .cid (s.raise .unknownOpcode opCid.toNat)
  | ld : Effect s .ld (s.raise .unknownOpcode opLd.toNat)
  | ldc : Effect s .ldc (s.raise .unknownOpcode opLdc.toNat)
  | out : Effect s .out (s.raise .unknownOpcode opOut.toNat)

/-- `exec` answers a next state exactly when `Effect` lists it. -/
theorem exec_next_iff (s t : State) (i : Instr) : exec i s = .next t ↔ Effect s i t := by
  constructor
  · intro h
    cases i with
    | nop => cases h; exact .nop
    | move reg imm =>
      rcases withReg_next _ _ _ _ h with ⟨e, rfl⟩ | ⟨r, e, h⟩
      · exact .moveBad e
      · cases h; exact .move e
    | add dst src =>
      rcases withReg_next _ _ _ _ h with ⟨e, rfl⟩ | ⟨d, ed, h⟩
      · exact .addBadDst e
      · rcases withReg_next _ _ _ _ h with ⟨e, rfl⟩ | ⟨r, er, h⟩
        · exact .addBadSrc ed e
        · cases h; exact .add ed er
    | start m =>
      change execStart m s = .next t at h
      unfold execStart at h
      split_ifs at h with h1 h2 <;> cases h
      · exact .startUnknown h1
      · exact .startExhausted (by simpa using h1) h2
      · exact .start (by simpa using h1) (by omega)
    | ret =>
      change execRet s = .next t at h
      unfold execRet at h
      cases hc : s.cur with
      | root => rw [hc] at h; cases h; exact .retDone hc
      | mod m =>
        rw [hc] at h
        cases hs : s.cs with
        | nil => rw [hs] at h; cases h
        | cons f rest => rw [hs] at h; cases h; exact .ret hc hs
    | halt => cases h; exact .halt
    | moduleMark =>
      change execModule s = .next t at h
      unfold execModule declSkip at h
      cases hc : s.cur with
      | root =>
        rw [hc] at h
        cases hf : findRet s.root (s.pc + 2) with
        | none => rw [hf] at h; cases h; exact .skipBad hc hf
        | some t => rw [hf] at h; cases h; exact .skip hc hf
      | mod m => rw [hc] at h; cases h; exact .nested hc
    | run => cases h; exact .run
    | cid => cases h; exact .cid
    | ld => cases h; exact .ld
    | ldc => cases h; exact .ldc
    | out => cases h; exact .out
  · intro h
    cases h with
    | move e => exact withReg_some _ _ _ _ e
    | moveBad e => exact withReg_none _ _ _ e
    | add ed er => exact (withReg_some _ _ _ _ ed).trans (withReg_some _ _ _ _ er)
    | addBadDst e => exact withReg_none _ _ _ e
    | addBadSrc ed e => exact (withReg_some _ _ _ _ ed).trans (withReg_none _ _ _ e)
    | startUnknown e => exact if_pos e
    | startExhausted e hd => simp [exec, execStart, e, hd]
    | start e hd => simp [exec, execStart, e, hd]
    | retDone e => simp [exec, execRet, e]
    | ret e hc => simp [exec, execRet, e, hc]
    | skip e ht => simp [exec, execModule, declSkip, e, ht]
    | skipBad e ht => simp [exec, execModule, declSkip, e, ht]
    | nested e => simp [exec, execModule, e]
    | _ => rfl

/-- The bytes a step fetches: those of the fetch memory from `pc` on, at most three, none beyond 255 (R93, R95). -/
theorem State.fetchBytes_eq (s : State) :
    s.fetchBytes = (List.range' s.pc (min 3 (256 - s.pc))).map (s.readByte s.cur) := by
  have key : ∀ n a, (List.range' a n).filterMap s.fetchMemory.read =
      (List.range' a (min n (256 - a))).map (s.readByte s.cur) := by
    intro n
    induction n with
    | zero => intro a; simp
    | succ n ih =>
      intro a
      rw [List.range'_succ, List.filterMap_cons]
      unfold Memory.read memSize
      by_cases ha : a < 256
      · rw [if_pos ha]
        have hm : min (n + 1) (256 - a) = min n (256 - (a + 1)) + 1 := by omega
        rw [hm, List.range'_succ, List.map_cons, ← ih (a + 1)]
        rfl
      · rw [if_neg ha]
        have h0 : min (n + 1) (256 - a) = 0 := by omega
        have := ih (a + 1)
        have h1 : min n (256 - (a + 1)) = 0 := by omega
        rw [h1] at this
        rw [h0]
        exact this
  exact key 3 s.pc

@[simp] theorem State.fetchBytes_length (s : State) : s.fetchBytes.length = min 3 (256 - s.pc) := by
  rw [State.fetchBytes_eq]
  simp

/-- The first fetched byte is the opcode byte. -/
theorem State.fetchBytes_head (s : State) (h : s.pc < 256) : s.fetchBytes.head? = some (s.readByte s.cur s.pc) := by
  rw [State.fetchBytes_eq]
  have : min 3 (256 - s.pc) = min 2 (255 - s.pc) + 1 := by omega
  rw [this, List.range'_succ]
  rfl

/-- The three fetched bytes, where three are there. -/
theorem State.fetchBytes_three (s : State) (h : s.pc ≤ 253) :
    s.fetchBytes = [s.readByte s.cur s.pc, s.readByte s.cur (s.pc + 1), s.readByte s.cur (s.pc + 2)] := by
  rw [State.fetchBytes_eq, show min 3 (256 - s.pc) = 3 by omega]
  rfl

/-- The fetched bytes after the opcode byte. -/
theorem State.fetchBytes_cons (s : State) (h : s.pc < 256) :
    s.fetchBytes = s.readByte s.cur s.pc ::
      (List.range' (s.pc + 1) (min 2 (255 - s.pc))).map (s.readByte s.cur) := by
  rw [State.fetchBytes_eq, show min 3 (256 - s.pc) = min 2 (255 - s.pc) + 1 by omega, List.range'_succ]
  rfl

/-- Every next state a step can have (R90 to R98). -/
theorem step_cases (s t : State) (h : step s = .next t) :
    s.status = .running ∧
      ((s.budgetSpent = true ∧ t = s.cancel) ∨
       (s.budgetSpent = false ∧
        ((256 ≤ s.pc + s.fetchBytes.length ∧ decode s.fetchBytes = .missing s.fetchBytes.length ∧
            t = s.raise .outOfBounds (s.pc + s.fetchBytes.length)) ∨
         (∃ b0, decode s.fetchBytes = .illegal b0 ∧ t = s.raise .unknownOpcode b0.toNat) ∨
         ∃ i rest, decode s.fetchBytes = .instr i rest ∧ Effect s i t))) := by
  unfold step nextAction at h
  by_cases hr : s.status = .running
  · refine ⟨hr, ?_⟩
    rw [if_neg (by simp [hr])] at h
    cases hb : s.budgetSpent with
    | true =>
      rw [hb] at h
      cases h
      exact .inl ⟨rfl, rfl⟩
    | false =>
      rw [hb] at h
      refine .inr ⟨rfl, ?_⟩
      cases hd : decode s.fetchBytes with
      | missing n =>
        obtain ⟨hn, h2⟩ := decode_missing _ _ hd
        rw [hd] at h
        cases h
        have hl := s.fetchBytes_length
        exact .inl ⟨by omega, by rw [hn], by rw [hn]⟩
      | illegal b0 =>
        rw [hd] at h
        cases h
        exact .inr (.inl ⟨b0, rfl, rfl⟩)
      | instr i rest =>
        rw [hd] at h
        exact .inr (.inr ⟨i, rest, rfl, (exec_next_iff s t i).mp h⟩)
  · rw [if_pos hr] at h
    cases h

/-- The front of a step that is not a cancellation is its decode. -/
theorem step_of_ready (s : State) (h : s.ready) :
    step s = match decode s.fetchBytes with
      | .instr i _ => exec i s
      | .missing n => .next (s.raise .outOfBounds (s.pc + n))
      | .illegal b0 => .next (s.raise .unknownOpcode b0.toNat) := by
  unfold step nextAction
  rw [if_neg (by simp [h.1]), h.2]
  cases decode s.fetchBytes <;> rfl

/-- An instruction that was fetched ends at or below address 256. -/
theorem State.fetched_fits (s : State) (i : Instr) (rest : List Byte) (h : decode s.fetchBytes = .instr i rest) :
    s.pc + i.length ≤ 256 ∧ s.readByte s.cur s.pc = i.opcode := by
  obtain ⟨hl, hh⟩ := decode_instr _ _ _ h
  rw [State.fetchBytes_length] at hl
  have hi : 1 ≤ i.length := by cases i <;> simp [Instr.length]
  have hp : s.pc < 256 := by omega
  rw [State.fetchBytes_head s hp] at hh
  exact ⟨by omega, Option.some.inj hh⟩

/-- A fetched MOVE: where it stands, and its operand bytes (R71, R95). -/
theorem State.fetched_move (s : State) (reg imm : Byte) (rest : List Byte)
    (h : decode s.fetchBytes = .instr (.move reg imm) rest) :
    s.pc ≤ 253 ∧ s.readByte s.cur s.pc = opMove ∧ reg = s.readByte s.cur (s.pc + 1) ∧
      imm = s.readByte s.cur (s.pc + 2) := by
  obtain ⟨hf, ho⟩ := s.fetched_fits _ rest h
  have hp : s.pc ≤ 253 := by simp only [Instr.length] at hf; omega
  rw [s.fetchBytes_three hp, ho] at h
  cases h
  exact ⟨hp, ho, rfl, rfl⟩

/-- A fetched ADD: where it stands, and its operand bytes (R71, R95). -/
theorem State.fetched_add (s : State) (dst src : Byte) (rest : List Byte)
    (h : decode s.fetchBytes = .instr (.add dst src) rest) :
    s.pc ≤ 253 ∧ s.readByte s.cur s.pc = opAdd ∧ dst = s.readByte s.cur (s.pc + 1) ∧
      src = s.readByte s.cur (s.pc + 2) := by
  obtain ⟨hf, ho⟩ := s.fetched_fits _ rest h
  have hp : s.pc ≤ 253 := by simp only [Instr.length] at hf; omega
  rw [s.fetchBytes_three hp, ho] at h
  cases h
  exact ⟨hp, ho, rfl, rfl⟩

/-- A fetched START: where it stands, and its operand byte (R71, R95). -/
theorem State.fetched_start (s : State) (m : Byte) (rest : List Byte)
    (h : decode s.fetchBytes = .instr (.start m) rest) :
    s.pc ≤ 254 ∧ s.readByte s.cur s.pc = opStart ∧ m = s.readByte s.cur (s.pc + 1) := by
  obtain ⟨hf, ho⟩ := s.fetched_fits _ rest h
  have hp : s.pc ≤ 254 := by simp only [Instr.length] at hf; omega
  rw [s.fetchBytes_cons (by omega), ho, show min 2 (255 - s.pc) = min 1 (254 - s.pc) + 1 by omega,
    List.range'_succ] at h
  cases h
  exact ⟨hp, ho, rfl⟩

end Sys2Proof.Machine
end

