-- ==== Sys2Proof/Laws/Fetch.lean ====
section
/-! SUPPORT. `State.withFetchWord` does what it says: the next step runs the word's instruction, in every state. -/

namespace Sys2Proof.Machine

open Sys2Proof

theorem Memory.get_place (m : Memory) (a : Nat) (bs : List Byte) (b : Nat) (h : a + bs.length ≤ 256) :
    (Memory.place m a bs).get b = if a ≤ b ∧ b < a + bs.length then bs.getD (b - a) 0x00#8 else Memory.get m b := by
  induction bs generalizing m a with
  | nil => rw [if_neg (by simp)]; rfl
  | cons v bs ih =>
    simp only [List.length_cons] at h ⊢
    have hw : Memory.write m a v = some (Memory.set m a v) := if_pos (show a < 256 by omega)
    rw [Memory.place, hw, Option.getD_some, ih _ _ (by omega), Memory.get_set]
    by_cases e : b = a
    · subst e
      rw [if_neg (by omega), if_pos rfl, if_pos (by omega)]
      simp
    · by_cases hb : a + 1 ≤ b ∧ b < a + 1 + bs.length
      · rw [if_pos hb, if_pos (by omega), show b - a = (b - (a + 1)) + 1 by omega]
        rfl
      · rw [if_neg hb, if_neg e, if_neg (by omega)]

theorem State.placeInFetchMemory_cur (s : State) (a : Nat) (bs : List Byte) :
    (s.placeInFetchMemory a bs).cur = s.cur := by
  unfold State.placeInFetchMemory
  split <;> rfl

theorem State.placeInFetchMemory_readByte (s : State) (a : Nat) (bs : List Byte) (b : Nat) :
    (s.placeInFetchMemory a bs).readByte s.cur b = (s.fetchMemory.place a bs).get b := by
  unfold State.placeInFetchMemory State.fetchMemory State.readByte
  cases s.cur with
  | root => rfl
  | mod m =>
    simp only [State.memory_mod]
    unfold State.slot
    simp only [ModuleTable.slot_setSlot, if_true]

theorem State.placeAddress_le (s : State) : s.placeAddress ≤ 253 := by
  unfold State.placeAddress
  split <;> omega

theorem State.withFetchWord_ready (s : State) (nbits w : Nat) : (s.withFetchWord nbits w).ready := by
  refine ⟨rfl, ?_⟩
  have hs : (s.withFetchWord nbits w).steps = s.steps := by
    unfold State.withFetchWord State.withFetchBytes State.placeInFetchMemory
    cases s.cur <;> rfl
  have hp : (s.withFetchWord nbits w).params =
      if s.budgetSpent then { s.params with stepBudget := none } else s.params := rfl
  unfold State.budgetSpent
  rw [hp, hs]
  split_ifs with h
  · rfl
  · simpa [State.budgetSpent] using h

/-- With any word placed in any state, the next step fetches exactly that word's bytes. -/
theorem State.withFetchWord_fetchBytes (s : State) (nbits w : Nat) :
    (s.withFetchWord nbits w).fetchBytes = tableBytes nbits w := by
  have hle := s.placeAddress_le
  have hc : (s.withFetchWord nbits w).cur = s.cur := s.placeInFetchMemory_cur _ _
  have hr : ∀ k, k < 3 → (s.withFetchWord nbits w).readByte s.cur (s.placeAddress + k) =
      (tableBytes nbits w).getD k 0x00#8 := by
    intro k hk
    have : (s.withFetchWord nbits w).readByte s.cur (s.placeAddress + k) =
        (s.placeInFetchMemory s.placeAddress (tableBytes nbits w)).readByte s.cur (s.placeAddress + k) := by
      unfold State.readByte
      cases s.cur <;> rfl
    rw [this, State.placeInFetchMemory_readByte, Memory.get_place _ _ _ _ (by simp [tableBytes]; omega),
      if_pos (by simp [tableBytes]; omega), Nat.add_sub_cancel_left]
  have hp : (s.withFetchWord nbits w).pc = s.placeAddress := rfl
  rw [State.fetchBytes_three _ (by rw [hp]; exact hle), hc, hp]
  have h0 := hr 0 (by decide)
  rw [Nat.add_zero] at h0
  rw [h0, hr 1 (by decide), hr 2 (by decide)]
  rfl

/-- The next step runs the instruction the decoder reads from the word, in every state. -/
theorem State.withFetchWord_runs (s : State) (nbits w : Nat) (i : Instr) (h : decodeTableWord nbits w = some i) :
    step (s.withFetchWord nbits w) = exec i (s.withFetchWord nbits w) := by
  rw [step_of_ready _ (s.withFetchWord_ready nbits w), State.withFetchWord_fetchBytes]
  unfold decodeTableWord at h
  cases e : decode (tableBytes nbits w) with
  | instr j rest => rw [e] at h; cases h; rfl
  | missing n => rw [e] at h; cases h
  | illegal b => rw [e] at h; cases h

end Sys2Proof.Machine
end

