-- ==== Sys2Proof/Laws/Loader.lean ====
section
/-! SUPPORT. The Loader's loop as one induction (spec/70_reset_and_hazards.md R166), and what accepting a declaration
writes. -/

namespace Sys2Proof.Machine

open Sys2Proof

/-- Why the scan stops at the declaration at `a`, with `mt` the table so far (R133, R164, R165). -/
inductive ScanStop (root : Memory) (mt : ModuleTable) : LoadFault → Prop where
  | noId : ScanStop root mt ⟨.malformedModule, 255, 256⟩
  | duplicate {a : Nat} (ha : a ≤ 254) (h : (mt.slot (root.get (a + 1))).occupied = true) :
      ScanStop root mt ⟨.duplicateModule, a, (root.get (a + 1)).toNat⟩
  | noTerminator {a : Nat} (ha : a ≤ 254) (h : (mt.slot (root.get (a + 1))).occupied = false)
      (ht : findRet root (a + 2) = none) : ScanStop root mt ⟨.malformedModule, a, (root.get (a + 1)).toNat⟩

/-- What is known when a scan ends, for a property `P` of addresses and tables that every turn keeps. -/
def ScanEnds (root : Memory) (P : Nat → ModuleTable → Prop) : Loaded → Prop
  | .table mt => ∃ a, 256 ≤ a ∧ P a mt
  | .failed f => ∃ mt, P f.pc mt ∧ f.pc ≤ 255 ∧ root.get f.pc = opModule ∧ ScanStop root mt f

/-- The loop's induction: a property that holds at the start and that both kinds of turn keep holds where the scan ends. -/
theorem scanImage_induct (root : Memory) (P : Nat → ModuleTable → Prop)
    (skip : ∀ a mt, P a mt → a ≤ 255 → root.get a ≠ opModule → P (a + 1) mt)
    (accept : ∀ a mt t, P a mt → a ≤ 254 → root.get a = opModule →
      (mt.slot (root.get (a + 1))).occupied = false → findRet root (a + 2) = some t →
      P (t + 1) (acceptDeclaration root mt a (root.get (a + 1)) t))
    (turns a : Nat) (mt : ModuleTable) (h : P a mt) (hn : 256 ≤ a + turns) :
    ScanEnds root P (scanImage root turns a mt) := by
  induction turns generalizing a mt with
  | zero => exact ⟨a, by omega, h⟩
  | succ n ih =>
    unfold scanImage
    by_cases h1 : memSize ≤ a
    · rw [if_pos h1]
      exact ⟨a, h1, h⟩
    rw [if_neg h1]
    have hlt : a ≤ 255 := by simp only [memSize] at h1; omega
    by_cases h2 : root.get a = opModule
    · rw [if_neg (by simp [h2])]
      by_cases h3 : a = 255
      · rw [if_pos h3]
        subst h3
        exact ⟨mt, h, le_refl _, h2, .noId⟩
      rw [if_neg h3]
      have ha : a ≤ 254 := by omega
      by_cases h4 : (mt.slot (root.get (a + 1))).occupied = true
      · rw [if_pos h4]
        exact ⟨mt, h, by simp; omega, h2, .duplicate ha h4⟩
      rw [if_neg h4]
      have h5 : (mt.slot (root.get (a + 1))).occupied = false := by simpa using h4
      cases ht : findRet root (a + 2) with
      | none => exact ⟨mt, h, by simp; omega, h2, .noTerminator ha h5 ht⟩
      | some t =>
        have := (findRet_eq_some_iff _ _ _).mp ht
        exact ih (t + 1) _ (accept a mt t h ha h2 h5 ht) (by omega)
    · rw [if_pos h2]
      exact ih (a + 1) mt (skip a mt h hlt h2) (by omega)

/-- The same for a whole load, from address 0 and the empty table. -/
theorem load_induct (root : Memory) (P : Nat → ModuleTable → Prop) (start : P 0 [])
    (skip : ∀ a mt, P a mt → a ≤ 255 → root.get a ≠ opModule → P (a + 1) mt)
    (accept : ∀ a mt t, P a mt → a ≤ 254 → root.get a = opModule →
      (mt.slot (root.get (a + 1))).occupied = false → findRet root (a + 2) = some t →
      P (t + 1) (acceptDeclaration root mt a (root.get (a + 1)) t)) :
    ScanEnds root P (load root) := scanImage_induct root P skip accept 256 0 [] start (by omega)

/-- The slot an accepted declaration fills; every other slot is as before. -/
theorem acceptDeclaration_slot (root : Memory) (mt : ModuleTable) (a : Nat) (mid : Byte) (t : Nat) (k : Byte) :
    (acceptDeclaration root mt a mid t).slot k =
      if k = mid then
        { mt.slot mid with
          occupied := true
          id := mid
          bodyStart := a + 2
          privateMemory := copyBytes root (List.range' (a + 2) (t + 1 - (a + 2))) (mt.slot mid).privateMemory }
      else mt.slot k := ModuleTable.slot_setSlot _ _ _ _

/-- The private memory of a slot that was empty: body and terminator, 0x00 elsewhere (R55, D11). -/
theorem get_copied (root : Memory) (lo t a : Nat) (h : lo ≤ t) :
    (copyBytes root (List.range' lo (t + 1 - lo)) []).get a = if lo ≤ a ∧ a ≤ t then root.get a else 0x00#8 := by
  rw [get_copyBytes, Memory.get_nil]
  have : a ∈ List.range' lo (t + 1 - lo) ↔ lo ≤ a ∧ a ≤ t := by
    rw [List.mem_range'_1]
    omega
  simp only [this]

theorem wf_acceptDeclaration (root : Memory) (mt : ModuleTable) (a : Nat) (mid : Byte) (t : Nat) (ht : t ≤ 255)
    (h : mt.wf = true) : (acceptDeclaration root mt a mid t).wf = true := by
  refine ModuleTable.wf_setSlot _ _ _ h (wf_copyBytes _ _ _ (ModuleTable.wf_slot mt h mid) fun x hx => ?_)
  rw [List.mem_range'_1] at hx
  omega

/-! ### The host's LoadImage -/

/-- LoadImage where the Loader succeeds (R171). -/
theorem State.loadImage_table (s : State) (bytes : List Byte) (mt : ModuleTable) (h : s.status = .idle)
    (hl : bytes.length = 256) (hm : load (Memory.ofBytesAt 0 bytes) = .table mt) :
    s.loadImage bytes = .next (s.startRun (Memory.ofBytesAt 0 bytes) mt) := by
  simp [State.loadImage, h, hl, hm, memSize]

/-- LoadImage where the Loader fails (R167). -/
theorem State.loadImage_failed (s : State) (bytes : List Byte) (f : LoadFault) (h : s.status = .idle)
    (hl : bytes.length = 256) (hm : load (Memory.ofBytesAt 0 bytes) = .failed f) :
    s.loadImage bytes = .next (s.loadFailed (Memory.ofBytesAt 0 bytes) f) := by
  simp [State.loadImage, h, hl, hm, memSize]

/-- Every next state LoadImage can have, and when (R150, R152, R161). -/
theorem State.loadImage_cases (s t : State) (bytes : List Byte) (h : s.loadImage bytes = .next t) :
    s.status = .idle ∧ bytes.length = 256 ∧
      ((∃ mt, load (Memory.ofBytesAt 0 bytes) = .table mt ∧ t = s.startRun (Memory.ofBytesAt 0 bytes) mt) ∨
       ∃ f, load (Memory.ofBytesAt 0 bytes) = .failed f ∧ t = s.loadFailed (Memory.ofBytesAt 0 bytes) f) := by
  unfold State.loadImage at h
  by_cases hs : s.status = .idle
  · rw [if_neg (by simp [hs])] at h
    by_cases hl : bytes.length = memSize
    · rw [if_neg (by simp [hl])] at h
      refine ⟨hs, hl, ?_⟩
      cases e : load (Memory.ofBytesAt 0 bytes) with
      | table mt => rw [e] at h; cases h; exact .inl ⟨mt, rfl, rfl⟩
      | failed f => rw [e] at h; cases h; exact .inr ⟨f, rfl, rfl⟩
    · rw [if_pos hl] at h; cases h
  · rw [if_pos hs] at h; cases h

end Sys2Proof.Machine
end

