-- ==== Sys2Proof/Laws/PerInstr.lean ====
section
/-! SUPPORT. Statements made for every instruction, one lemma per constructor. -/

/-- An instruction's encoding is its opcode byte and then its operand bytes, as long as the engine reads: 1, 2 or 3 bytes
(spec/30_encoding.md R70, R71, R73). -/
def Sys2Proof.Laws.EncodedLength.Statement (i : Sys2Proof.Instr) : Prop :=
  (Sys2Proof.encode i).length = i.length ∧ (Sys2Proof.encode i).head? = some i.opcode ∧ 1 ≤ i.length ∧ i.length ≤ 3

namespace Sys2Proof.Laws.EncodedLength

theorem nop : Statement .nop := ⟨rfl, rfl, by decide, by decide⟩
theorem move (reg imm : Byte) : Statement (.move reg imm) :=
  ⟨rfl, rfl, (by decide : 1 ≤ 3), (by decide : 3 ≤ 3)⟩
theorem add (dst src : Byte) : Statement (.add dst src) :=
  ⟨rfl, rfl, (by decide : 1 ≤ 3), (by decide : 3 ≤ 3)⟩
theorem start (mid : Byte) : Statement (.start mid) :=
  ⟨rfl, rfl, (by decide : 1 ≤ 2), (by decide : 2 ≤ 3)⟩
theorem ret : Statement .ret := ⟨rfl, rfl, by decide, by decide⟩
theorem halt : Statement .halt := ⟨rfl, rfl, by decide, by decide⟩
theorem moduleMark : Statement .moduleMark := ⟨rfl, rfl, by decide, by decide⟩
theorem run : Statement .run := ⟨rfl, rfl, by decide, by decide⟩
theorem cid : Statement .cid := ⟨rfl, rfl, by decide, by decide⟩
theorem ld : Statement .ld := ⟨rfl, rfl, by decide, by decide⟩
theorem ldc : Statement .ldc := ⟨rfl, rfl, by decide, by decide⟩
theorem out : Statement .out := ⟨rfl, rfl, by decide, by decide⟩

end Sys2Proof.Laws.EncodedLength
end

