-- ==== Sys2Proof/Machine/Assembler.lean ====
section
/-! DEFINITION. The assembler of spec/30_encoding.md R79 (the text form) and R80 (byte concatenation from address 0,
unfilled cells 0x00). -/

namespace Sys2Proof.Machine

open Sys2Proof

/-- What the assembler places: an instruction, or a declaration with its terminator (R80). -/
inductive Item where
  | instr (i : Instr)
  | declaration (d : Declaration)
  deriving DecidableEq, Repr

/-- The bytes of an item (R80). -/
def Item.bytes : Item → List Byte
  | .instr i => encode i
  | .declaration d => d.encode

/-- The 256-byte image of a program, or `none` when it does not fit: each item at the next free address, 0x00 after
the last (R80). -/
def assemble (items : List Item) : Option (List Byte) :=
  let bytes := items.flatMap Item.bytes
  if bytes.length ≤ memSize then some (bytes ++ List.replicate (memSize - bytes.length) 0#8) else none

/-! ### The text form (R79) -/

/-- Cut a text at the characters `sep` picks, dropping empty pieces. -/
def cutAt (sep : Char → Bool) : List Char → List Char → List (List Char)
  | [], acc => if acc.isEmpty then [] else [acc.reverse]
  | c :: cs, acc =>
    if sep c then (if acc.isEmpty then cutAt sep cs [] else acc.reverse :: cutAt sep cs [])
    else cutAt sep cs (c :: acc)

/-- Statements end at `;` or a line break; words within one are separated by spaces or a comma (R79). R79 does not say
which characters these are: DESIGN CHOICE, log entry 12, a line break is LF alone and a space is U+0020 alone, so a CR
or a tab stays in its word; separators may repeat, and empty statements are dropped. -/
def sourceWords (text : String) : List (List String) :=
  (cutAt (fun c => c = ';' || c = '\n') text.toList []).filterMap fun line =>
    let words := (cutAt (fun c => c = ' ' || c = ',') line []).map String.ofList
    if words.isEmpty then none else some words

/-- The value of a digit in a base of at most 16. R79 gives no case for hexadecimal digits: DESIGN CHOICE, log entry 12,
both are read. -/
def digitValue (c : Char) : Option Nat :=
  if '0' ≤ c ∧ c ≤ '9' then some (c.toNat - '0'.toNat)
  else if 'a' ≤ c ∧ c ≤ 'f' then some (c.toNat - 'a'.toNat + 10)
  else if 'A' ≤ c ∧ c ≤ 'F' then some (c.toNat - 'A'.toNat + 10)
  else none

/-- Digits in a base, most significant first. -/
def digitsValue (base : Nat) : List Char → Nat → Option Nat
  | [], n => some n
  | c :: cs, n =>
    match digitValue c with
    | none => none
    | some v => if v < base then digitsValue base cs (n * base + v) else none

/-- A literal or module id: decimal or `0x` hexadecimal, 0..255 (R79). DESIGN CHOICE, log entry 12: the prefix is `0x` as
R79 writes it, not `0X`; at least one digit; leading zeros are read. -/
def literalOf (w : String) : Option Byte :=
  let value := match w.toList with
    | [] => none
    | '0' :: 'x' :: c :: cs => digitsValue 16 (c :: cs) 0
    | c :: cs => digitsValue 10 (c :: cs) 0
  match value with
  | none => none
  | some n => if n ≤ 255 then some (BitVec.ofNat 8 n) else none

/-- A register operand: AX, BX, CX or DX. -/
def registerOf (w : String) : Option Byte :=
  if w = "AX" then some 1#8
  else if w = "BX" then some 2#8
  else if w = "CX" then some 3#8
  else if w = "DX" then some 4#8
  else none

/-- One statement that is an instruction, its operands in encoding order. -/
def instrOf : List String → Option Instr
  | ["NOP"] => some .nop
  | ["MOVE", r, v] => (registerOf r).bind fun reg => (literalOf v).map (Instr.move reg)
  | ["ADD", d, r] => (registerOf d).bind fun dst => (registerOf r).map (Instr.add dst)
  | ["START", m] => (literalOf m).map Instr.start
  | ["RET"] => some .ret
  | ["HALT"] => some .halt
  | ["RUN"] => some .run
  | ["CID"] => some .cid
  | ["LD"] => some .ld
  | ["LDC"] => some .ldc
  | ["OUT"] => some .out
  | _ => none

/-- The statements of a program; `opened` is the declaration being read, its body last first. `MODULE id` opens a
declaration and the next `RET` closes it. -/
def itemsOf : List (List String) → Option (Byte × List Instr) → Option (List Item)
  | [], none => some []
  | [], some _ => none
  | ["MODULE", m] :: rest, none => (literalOf m).bind fun mid => itemsOf rest (some (mid, []))
  | words :: rest, none => (instrOf words).bind fun i => (itemsOf rest none).map (Item.instr i :: ·)
  | words :: rest, some (mid, body) =>
    match instrOf words with
    | none => none
    | some .ret => (itemsOf rest none).map (Item.declaration ⟨mid, body.reverse⟩ :: ·)
    | some i => itemsOf rest (some (mid, i :: body))

/-- The image of a program text. -/
def assembleText (text : String) : Option (List Byte) := (itemsOf (sourceWords text) none).bind assemble

end Sys2Proof.Machine
end

