-- ==== Sys2Proof/Machine/Trace.lean ====
section
/-! DEFINITION. The trace events of the Loader (spec/60_exceptions.md R153). They are outputs, not state
(spec/10_state.md R44): a function of the image beside the Loader, which nothing of the machine reads. -/

namespace Sys2Proof.Machine

open Sys2Proof

/-- The two events R153 places. It says of the third, register-dump, that the source does not say when it occurs: the
model emits none (log entry 10). -/
inductive TraceEvent where
  /-- The Loader accepts a declaration. -/
  | moduleFound (id : Byte) (addr : Nat)
  /-- The Loader copies a byte into a private memory. -/
  | instructionStored (id : Byte) (addr : Nat) (byte : Byte)
  deriving DecidableEq, Repr

/-- The events of one accepted declaration at `a` with terminator `t`. -/
def declarationEvents (root : Memory) (a : Nat) (mid : Byte) (t : Nat) : List TraceEvent :=
  .moduleFound mid a ::
    (List.range' (a + 2) (t + 1 - (a + 2))).map fun x => .instructionStored mid x (root.get x)

/-- The events of the Loader's loop from address `a`, in the order of R166. A declaration that faults has none. -/
def scanEvents (root : Memory) : Nat → Nat → ModuleTable → List TraceEvent
  | 0, _, _ => []
  | turns + 1, a, mt =>
    if memSize ≤ a then []
    else if root.get a ≠ opModule then scanEvents root turns (a + 1) mt
    else if a = 255 then []
    else if (mt.slot (root.get (a + 1))).occupied = true then []
    else
      match findRet root (a + 2) with
      | none => []
      | some t =>
        declarationEvents root a (root.get (a + 1)) t ++
          scanEvents root turns (t + 1) (acceptDeclaration root mt a (root.get (a + 1)) t)

/-- The events of a whole Loader pass. -/
def loadEvents (root : Memory) : List TraceEvent := scanEvents root memSize 0 []

end Sys2Proof.Machine
end

