-- ==== Sys2Proof/Tests/Slice0.lean ====
section
/-! SUPPORT. Tests: ill-formed terms, decoding of words written out from spec/30_encoding.md, single steps with the
results of the rules' own examples and of spec/95_test_vectors.md, and for each statement with hypotheses a state that
meets them. -/

namespace Sys2Proof.Tests

open Sys2Proof Sys2Proof.Machine

/-! ### Helpers -/

def isNext : Host.Outcome State Fault Refusal → Bool
  | .next _ => true
  | .fault _ => false
  | .refused _ => false

def got : Host.Outcome State Fault Refusal → State
  | .next s => s
  | .fault _ => State.resetWith ⟨1, none⟩
  | .refused _ => State.resetWith ⟨1, none⟩

theorem next_got {o : Host.Outcome State Fault Refusal} (h : isNext o = true) : o = .next (got o) := by
  cases o with
  | next s => rfl
  | fault r => cases h
  | refused r => cases h

/-- RUNNING in the root context with `bytes` at `pc`, MAX_DEPTH 2 and no budget. -/
def rootAt (pc : Nat) (bytes : List Byte) : State :=
  { State.resetWith ⟨2, none⟩ with status := .running, pc := pc, root := Memory.ofBytesAt pc bytes }

/-- `s` with module `m` loaded: `bytes` in its private memory from `start` on. -/
def withModule (s : State) (m : Byte) (start : Nat) (bytes : List Byte) : State :=
  { s with mt := s.mt.setSlot m { ModuleRecord.empty with
      id := m, occupied := true, privateMemory := Memory.ofBytesAt start bytes, bodyStart := start } }

/-- RUNNING in MOD(m) at `pc`, called from the root, with `bytes` at `pc` of PRIV[m]. -/
def modAt (m : Byte) (pc : Nat) (bytes : List Byte) : State :=
  { withModule (rootAt pc []) m pc bytes with
    cur := .mod m, cs := [⟨5, .root, ⟨3#8, 0#8, 0#8, 0#8⟩⟩], regs := ⟨5#8, 3#8, 0#8, 0#8⟩ }

/-- A 256-byte image. -/
def image (bytes : List Byte) : List Byte := bytes ++ List.replicate (256 - bytes.length) 0#8

/-- IDLE after reset, MAX_DEPTH 2 and no budget. -/
def idle : State := State.resetWith ⟨2, none⟩

/-- The invariant as a check that computes. -/
def invCheck (s : State) : Bool :=
  decide (s.pc ≤ 256) && stackFits s.cur s.cs && decide (s.depth ≤ s.params.maxDepth) &&
    decide (1 ≤ s.params.maxDepth) && faultFits s.status s.fault && s.root.wf && s.mt.wf &&
    s.mt.all fun c => recordFits c.2

theorem inv_of_check {s : State} (h : invCheck s = true) : s.Inv := by
  simp only [invCheck, Bool.and_eq_true, decide_eq_true_eq, List.all_eq_true] at h
  obtain ⟨⟨⟨⟨⟨⟨⟨h1, h2⟩, h3⟩, h4⟩, h5⟩, h6⟩, h7⟩, h8⟩ := h
  refine ⟨h1, h2, h3, h4, h5, h6, h7, fun m => ?_⟩
  by_cases e : s.slot m = ModuleRecord.empty
  · rw [e]; rfl
  · exact h8 _ (Sparse.mem_of_get _ _ _ e)

/-! ### Well-formedness: an ill-formed term for each check -/

theorem test_move_reg0_ill_formed : (Instr.move 0#8 5#8).wellFormed = false := by decide
theorem test_move_reg5_ill_formed : (Instr.move 5#8 5#8).wellFormed = false := by decide
theorem test_add_dst_ill_formed : (Instr.add 9#8 1#8).wellFormed = false := by decide
theorem test_add_src_ill_formed : (Instr.add 1#8 0#8).wellFormed = false := by decide
theorem test_body_checks : Instr.ret.bodyOk = false ∧ Instr.moduleMark.bodyOk = false ∧
    (Instr.move 1#8 0x13#8).bodyOk = false ∧ (Instr.start 0x13#8).bodyOk = false ∧
    (Instr.move 0x13#8 1#8).bodyOk = false ∧ (Instr.add 0x13#8 1#8).bodyOk = false ∧
    (Instr.add 1#8 0x13#8).bodyOk = false := by decide
theorem test_declaration_ill_formed : Declaration.wellFormed ⟨1#8, [.ret]⟩ = false ∧
    Declaration.wellFormed ⟨1#8, [.move 0#8 1#8]⟩ = false := by decide

/-! ### Decoding: words written out from R71 and R73 -/

theorem test_decode_data : decode [0b00000000#8] = .instr .nop [] ∧
    decode [0b00010000#8, 0b00000001#8, 0b11111010#8] = .instr (.move 1#8 250#8) [] ∧
    decode [0b00010001#8, 0b00000001#8, 0b00000010#8] = .instr (.add 1#8 2#8) [] := by decide
theorem test_decode_control : decode [0b00010010#8, 0b11111111#8] = .instr (.start 0xFF#8) [] ∧
    decode [0b00010011#8] = .instr .ret [] ∧ decode [0b00010100#8] = .instr .halt [] ∧
    decode [0b00010101#8, 0b00000101#8] = .instr .moduleMark [0b00000101#8] := by decide
theorem test_decode_reserved : decode [0b00010110#8] = .instr .run [] ∧ decode [0b00010111#8] = .instr .cid [] ∧
    decode [0b00011000#8] = .instr .ld [] ∧ decode [0b00011001#8] = .instr .ldc [] ∧
    decode [0b00011010#8] = .instr .out [] := by decide
theorem test_decode_stops : decode [0b00001111#8] = .illegal 0x0F#8 ∧ decode [0b00011011#8] = .illegal 0x1B#8 ∧
    decode [] = .missing 0 ∧ decode [0b00010010#8] = .missing 1 ∧
    decode [0b00010001#8, 0b00000001#8] = .missing 2 := by decide
theorem test_decode_table_words : decodeTableWord 24 0xFA0110 = some (.move 1#8 250#8) ∧
    decodeTableWord 8 0x10 = some (.move 0#8 0#8) ∧ decodeTableWord 16 0xFF12 = some (.start 0xFF#8) ∧
    decodeTableWord 8 0x1B = none := by decide

/-! ### Single steps: the rules' own examples, and spec/95_test_vectors.md -/

/-- R105: pc 7 to 8. -/
theorem test_nop : step (rootAt 7 [0x00#8]) = .next { rootAt 7 [0x00#8] with pc := 8, steps := 1 } := rfl
/-- D-NOP2: the fetch at 256. -/
theorem test_nop_walks_off : (got (step (rootAt 256 []))).fault = ⟨some .outOfBounds, 256, .root, 256⟩ := by decide
/-- R106. -/
theorem test_move : (got (step (rootAt 0 [0x10#8, 0x01#8, 0x04#8]))).regs = ⟨4#8, 0#8, 0#8, 0#8⟩ ∧
    (got (step (rootAt 0 [0x10#8, 0x01#8, 0x04#8]))).pc = 3 := by decide
/-- D-MOV6: OutOfBounds before InvalidRegister; D-MOV3: InvalidRegister. -/
theorem test_move_faults : (got (step (rootAt 254 [0x10#8, 0xFF#8]))).fault = ⟨some .outOfBounds, 254, .root, 256⟩ ∧
    (got (step (rootAt 0 [0x10#8, 0x05#8, 0x05#8]))).fault = ⟨some .invalidRegister, 0, .root, 5⟩ := by decide
/-- R107: 250 + 10 = 4; D-ADD2: 0x7F + 0x7F = 0xFE. -/
theorem test_add :
    (got (step { rootAt 6 [0x11#8, 0x01#8, 0x02#8] with regs := ⟨250#8, 10#8, 0#8, 0#8⟩ })).regs =
      ⟨4#8, 10#8, 0#8, 0#8⟩ ∧
    (got (step { rootAt 6 [0x11#8, 0x04#8, 0x04#8] with regs := ⟨0#8, 0#8, 0#8, 0x7F#8⟩ })).regs =
      ⟨0#8, 0#8, 0#8, 0xFE#8⟩ := by decide
/-- D-ADD4 and D-ADD5: dst is checked first. -/
theorem test_add_faults :
    (got (step (rootAt 0 [0x11#8, 0x09#8, 0x00#8]))).fault = ⟨some .invalidRegister, 0, .root, 9⟩ ∧
    (got (step (rootAt 0 [0x11#8, 0x01#8, 0x00#8]))).fault = ⟨some .invalidRegister, 0, .root, 0⟩ := by decide

/-- R110's example: root, pc 3, AX 3, module 0 with body start 8. -/
def callState : State :=
  { withModule (rootAt 3 [0x12#8, 0x00#8, 0x13#8]) 0#8 8 [0x13#8] with regs := ⟨3#8, 0#8, 0#8, 0#8⟩ }

theorem test_start : let t := got (step callState)
    t.cs = [⟨5, .root, ⟨3#8, 0#8, 0#8, 0#8⟩⟩] ∧ (t.slot 0#8).registerCache = ⟨3#8, 0#8, 0#8, 0#8⟩ ∧
      (t.slot 0#8).caller = ⟨true, 0#8⟩ ∧ (t.slot 0#8).entry = true ∧ (t.slot 0#8).entryLocation = 8 ∧
      t.regs = ⟨0#8, 0#8, 0#8, 0#8⟩ ∧ t.cur = .mod 0#8 ∧ t.pc = 8 := by decide
/-- V6: UnknownModule; C-STA3: CallStackExhausted at depth MAX_DEPTH. -/
theorem test_start_faults :
    (got (step (rootAt 3 [0x12#8, 0xFF#8]))).fault = ⟨some .unknownModule, 3, .root, 0xFF⟩ ∧
    (got (step { modAt 1#8 5 [0x12#8, 0x01#8, 0x13#8] with
      cs := [⟨7, .mod 1#8, Regs.zero⟩, ⟨2, .root, Regs.zero⟩] })).fault =
      ⟨some .callStackExhausted, 5, .mod 1#8, 1⟩ := by decide
/-- R112's example. -/
theorem test_ret : let t := got (step (modAt 0#8 17 [0x13#8]))
    t.regs = ⟨3#8, 0#8, 0#8, 0#8⟩ ∧ t.cur = .root ∧ t.pc = 5 ∧ t.cs = [] := by decide
/-- C-RET1. -/
theorem test_ret_root : let t := got (step (rootAt 0 [0x13#8]))
    t.status = .done ∧ t.pc = 0 ∧ t.steps = 1 := by decide
/-- R114's example. -/
theorem test_halt : let t := got (step (modAt 2#8 40 [0x14#8]))
    t.status = .halted ∧ t.pc = 40 ∧ t.cur = .mod 2#8 ∧ t.depth = 1 ∧ t.fault = FaultRecord.clear := by decide
/-- R115's example, and the missing terminator with and without an id byte. -/
theorem test_module_root :
    (got (step (rootAt 0 [0x15#8, 0x05#8, 0x10#8, 0x01#8, 0x2A#8, 0x13#8]))).pc = 6 ∧
    (got (step (rootAt 254 [0x15#8, 0x05#8]))).fault = ⟨some .malformedModule, 254, .root, 5⟩ ∧
    (got (step (rootAt 255 [0x15#8]))).fault = ⟨some .malformedModule, 255, .root, 256⟩ := by decide
/-- R116's example. -/
theorem test_module_inside : (got (step (modAt 3#8 9 [0x15#8]))).fault = ⟨some .malformedModule, 9, .mod 3#8, 3⟩ := by
  decide
/-- The examples of R120 to R125, and U-5. -/
theorem test_reserved :
    (got (step (rootAt 255 [0x16#8]))).fault = ⟨some .unknownOpcode, 255, .root, 0x16⟩ ∧
    (got (step (modAt 1#8 4 [0x17#8]))).fault = ⟨some .unknownOpcode, 4, .mod 1#8, 0x17⟩ ∧
    (got (step (rootAt 10 [0x18#8]))).fault = ⟨some .unknownOpcode, 10, .root, 0x18⟩ ∧
    (got (step (rootAt 0 [0x19#8]))).fault = ⟨some .unknownOpcode, 0, .root, 0x19⟩ ∧
    (got (step (rootAt 3 [0x1A#8]))).fault = ⟨some .unknownOpcode, 3, .root, 0x1A⟩ ∧
    (got (step (rootAt 0 [0xFF#8]))).fault = ⟨some .unknownOpcode, 0, .root, 0xFF⟩ := by decide
/-- B-1 and B-2: the check is made at the start of a step. -/
theorem test_budget :
    (got (step { rootAt 0 [0x13#8] with params := ⟨2, some 0⟩ })).status = .cancelled ∧
    (got (step { rootAt 0 [0x13#8] with params := ⟨2, some 1⟩ })).status = .done := by decide

/-! ### The Loader and the assembler -/

/-- L-1. -/
def twiceDeclared : List Byte := image [0x15#8, 0x01#8, 0x13#8, 0x15#8, 0x01#8, 0x13#8]
/-- V3 and R170. -/
def oneModule : List Byte :=
  image [0x15#8, 0x01#8, 0x10#8, 0x01#8, 0x04#8, 0x10#8, 0x02#8, 0x09#8, 0x11#8, 0x01#8, 0x02#8, 0x13#8]

/-- The run state of `oneModule`. -/
def loadedState : State := got (idle.loadImage oneModule)

/-- L-1, L-2, L-3, L-4, V3, R153 and P1 in one evaluation: the kernel waits once. -/
theorem test_loader :
    (load (Memory.ofBytesAt 0 twiceDeclared) = .failed ⟨.duplicateModule, 3, 1⟩ ∧
      load (Memory.ofBytesAt 0 [0x15#8, 0x02#8, 0x10#8, 0x01#8, 0x05#8]) = .failed ⟨.malformedModule, 0, 2⟩ ∧
      load (Memory.ofBytesAt 255 [0x15#8]) = .failed ⟨.malformedModule, 255, 256⟩ ∧
      load (Memory.ofBytesAt 0 [0x10#8, 0x01#8, 0x15#8, 0x13#8]) = .failed ⟨.malformedModule, 2, 0x13⟩) ∧
    (isNext (idle.loadImage oneModule) = true ∧ loadedState.status = .running ∧ (loadedState.slot 1#8).bodyStart = 2 ∧
      (loadedState.slot 1#8).occupied = true ∧ (loadedState.slot 0#8).occupied = false ∧
      isNext (step loadedState) = true ∧ (Memory.ofBytesAt 0 oneModule).get 0 = opModule ∧
      (Memory.ofBytesAt 0 oneModule).get 1 = 1#8) ∧
    (isNext (idle.loadImage twiceDeclared) = true ∧ (got (idle.loadImage twiceDeclared)).status = .faulted) ∧
    (oneModule.length = 256 ∧ twiceDeclared.length = 256) ∧
    loadEvents (Memory.ofBytesAt 0 twiceDeclared) = [.moduleFound 1#8 0, .instructionStored 1#8 2 0x13#8] ∧
    assembleText "MOVE AX 3; START 0x00; RET; MODULE 0x00; MOVE AX 2; MOVE BX 3; ADD AX BX; RET" =
      some (image [0x10#8, 0x01#8, 0x03#8, 0x12#8, 0x00#8, 0x13#8, 0x15#8, 0x00#8, 0x10#8, 0x01#8, 0x02#8, 0x10#8,
        0x02#8, 0x03#8, 0x11#8, 0x01#8, 0x02#8, 0x13#8]) := by decide +kernel

theorem load_oneModule : idle.loadImage oneModule = .next loadedState := next_got test_loader.2.1.1
theorem load_twiceDeclared : idle.loadImage twiceDeclared = .next (got (idle.loadImage twiceDeclared)) :=
  next_got test_loader.2.2.1.1
theorem loadedState_running : loadedState.status = .running := test_loader.2.1.2.1
theorem step_loadedState : step loadedState = .next (got (step loadedState)) := next_got test_loader.2.1.2.2.2.2.2.1

theorem after_one {s t : State} (h : step s = .next t) : s.after 1 = some t := by
  unfold State.after
  rw [h]
  rfl

/-! ### Witnesses: for each statement with hypotheses, what meets them -/

theorem witness_DecodeEncodeInverse :
    decode [0x10#8, 0x01#8, 0x04#8, 0xFF#8] = .instr (.move 1#8 4#8) [0xFF#8] := by decide

theorem witness_OpcodeMapIsTotal : decode [0x01#8] = .illegal 0x01#8 ∧ decode [0x0F#8] = .illegal 0x0F#8 ∧
    decode [0x1B#8] = .illegal 0x1B#8 ∧ decode [0xFF#8] = .illegal 0xFF#8 ∧
    2 ≤ [0x13#8, 0x13#8].length ∧ decode [0x00#8, 0x13#8, 0x13#8] ≠ .illegal 0x00#8 ∧
    decode [0x10#8, 0x13#8, 0x13#8] ≠ .illegal 0x10#8 ∧ decode [0x1A#8, 0x13#8, 0x13#8] ≠ .illegal 0x1A#8 := by decide

theorem witness_StepRunsDecodedInstruction :
    (rootAt 255 [0x13#8]).ready ∧ decode (rootAt 255 [0x13#8]).fetchBytes = .instr .ret [] ∧
    (rootAt 253 [0x10#8, 0x01#8, 0x07#8]).pc + (Instr.move 1#8 7#8).length ≤ 256 ∧
    (rootAt 253 [0x10#8, 0x01#8, 0x07#8]).ready ∧
    ∀ (n : Nat) (h : n < (encode (.move 1#8 7#8)).length),
      (rootAt 253 [0x10#8, 0x01#8, 0x07#8]).readByte .root (253 + n) = (encode (.move 1#8 7#8))[n] := by decide

theorem witness_StepMeetsPseudocode :
    ((rootAt 0 []).status = .running ∧ ((rootAt 0 []).cur ≠ .root → (rootAt 0 []).cs ≠ [])) ∧
    (modAt 0#8 17 [0x13#8]).status = .running ∧
    ((modAt 0#8 17 [0x13#8]).cur ≠ .root → (modAt 0#8 17 [0x13#8]).cs ≠ []) := by decide

theorem inv_callState : callState.Inv := inv_of_check (by decide)
theorem inv_modAt : (modAt 0#8 17 [0x13#8]).Inv := inv_of_check (by decide)

theorem witness_EngineStepsOnlyWhenRunning :
    idle.status ≠ .running ∧ callState.Inv ∧ callState.status = .running :=
  ⟨by decide, inv_callState, rfl⟩

theorem witness_BudgetCancelsRun :
    (let s := { rootAt 0 [0x13#8] with params := ⟨2, some 0⟩ }
     s.status = .running ∧ s.params.stepBudget = some 0 ∧ 0 ≤ s.steps) ∧
    ((rootAt 0 [0x13#8]).params.stepBudget = none ∧ ∃ t, step (rootAt 0 [0x13#8]) = .next t) ∧
    (let s := { rootAt 0 [0x13#8] with params := ⟨2, some 1⟩ }
     s.params.stepBudget = some 1 ∧ s.steps < 1 ∧ ∃ t, step s = .next t) :=
  ⟨by decide, ⟨rfl, _, next_got (by decide)⟩, rfl, by decide, _, next_got (by decide)⟩

theorem witness_OpcodeFetchOutOfBounds : (rootAt 256 []).ready ∧ 256 ≤ (rootAt 256 []).pc ∧
    (rootAt 255 []).ready ∧ (rootAt 255 []).pc < 256 := by decide

theorem witness_OperandFetchOutOfBounds :
    ((rootAt 254 [0x10#8]).ready ∧ (rootAt 254 [0x10#8]).pc < 256 ∧ 254 ≤ (rootAt 254 [0x10#8]).pc ∧
      (rootAt 254 [0x10#8]).readByte .root 254 = 0x10#8) ∧
    ((rootAt 255 [0x11#8]).ready ∧ 254 ≤ (rootAt 255 [0x11#8]).pc ∧
      (rootAt 255 [0x11#8]).readByte .root 255 = 0x11#8) ∧
    ((rootAt 255 [0x12#8]).ready ∧ (rootAt 255 [0x12#8]).pc = 255 ∧
      (rootAt 255 [0x12#8]).readByte .root 255 = 0x12#8) ∧
    ((rootAt 253 [0x10#8]).pc < 254 ∧ (rootAt 253 [0x10#8]).readByte .root 253 = 0x10#8) ∧
    ((rootAt 253 [0x11#8]).pc < 254 ∧ (rootAt 253 [0x11#8]).readByte .root 253 = 0x11#8) ∧
    ((rootAt 254 [0x12#8]).pc < 255 ∧ (rootAt 254 [0x12#8]).readByte .root 254 = 0x12#8) ∧
    ∀ b ∈ [0x00#8, 0x13#8, 0x14#8, 0x15#8],
      (rootAt 255 [b]).ready ∧ (rootAt 255 [b]).pc < 256 ∧ (rootAt 255 [b]).readByte .root 255 = b := by decide

theorem witness_UnknownOpcodeAtDecode : ∀ b ∈ [0x01#8, 0x0F#8, 0x16#8, 0x1A#8, 0x1B#8, 0xFF#8],
    (rootAt 255 [b]).ready ∧ (rootAt 255 [b]).pc < 256 ∧ ((rootAt 255 [b]).readByte .root 255).toNat ≠ 0 ∧
    ¬ (0x10 ≤ ((rootAt 255 [b]).readByte .root 255).toNat ∧ ((rootAt 255 [b]).readByte .root 255).toNat ≤ 0x15) := by
  decide

theorem witness_NopAdvances :
    ((rootAt 255 []).ready ∧ (rootAt 255 []).pc ≤ 255 ∧ (rootAt 255 []).readByte .root 255 = 0x00#8) ∧
    (rootAt 256 []).ready ∧ (rootAt 256 []).pc = 256 := by decide

theorem witness_MoveLoadsLiteral :
    (1 ≤ (4#8).toNat ∧ (4#8).toNat ≤ 4) ∧ ((0#8).toNat = 0 ∨ 5 ≤ (0#8).toNat) ∧ 5 ≤ (5#8).toNat ∧
    ((rootAt 253 [0x10#8, 0x01#8, 0x07#8]).ready ∧ (rootAt 253 [0x10#8, 0x01#8, 0x07#8]).pc ≤ 253 ∧
      (rootAt 253 [0x10#8, 0x01#8, 0x07#8]).readByte .root 253 = 0x10#8 ∧
      (rootAt 253 [0x10#8, 0x01#8, 0x07#8]).readByte .root 254 = 1#8 ∧
      (rootAt 253 [0x10#8, 0x01#8, 0x07#8]).readByte .root 255 = 7#8) ∧
    ((rootAt 254 [0x10#8]).ready ∧ (rootAt 254 [0x10#8]).readByte .root 254 = 0x10#8) ∧
    (rootAt 255 [0x10#8]).ready ∧ (rootAt 255 [0x10#8]).readByte .root 255 = 0x10#8 := by decide

theorem witness_AddWraps :
    (Regs.getByte ⟨250#8, 10#8, 0#8, 0#8⟩ 1#8 = some 250#8 ∧ Regs.getByte ⟨250#8, 10#8, 0#8, 0#8⟩ 2#8 = some 10#8) ∧
    (5 ≤ (5#8).toNat) ∧ ((1 ≤ (4#8).toNat ∧ (4#8).toNat ≤ 4) ∧ (0#8).toNat = 0) ∧
    ((rootAt 253 [0x11#8, 0x01#8, 0x02#8]).ready ∧ (rootAt 253 [0x11#8, 0x01#8, 0x02#8]).pc ≤ 253 ∧
      (rootAt 253 [0x11#8, 0x01#8, 0x02#8]).readByte .root 253 = 0x11#8 ∧
      (rootAt 253 [0x11#8, 0x01#8, 0x02#8]).readByte .root 254 = 1#8 ∧
      (rootAt 253 [0x11#8, 0x01#8, 0x02#8]).readByte .root 255 = 2#8) ∧
    ((rootAt 254 [0x11#8]).ready ∧ (rootAt 254 [0x11#8]).readByte .root 254 = 0x11#8) ∧
    (rootAt 255 [0x11#8]).ready ∧ (rootAt 255 [0x11#8]).readByte .root 255 = 0x11#8 := by decide

theorem witness_StartCallsModule :
    ((callState.slot 0#8).occupied = true ∧ callState.depth < callState.params.maxDepth) ∧
    (callState.slot 255#8).occupied = false ∧
    (let s := { callState with params := ⟨0, none⟩ }
     (s.slot 0#8).occupied = true ∧ s.params.maxDepth ≤ s.depth) ∧
    ((rootAt 254 [0x12#8, 0xFF#8]).ready ∧ (rootAt 254 [0x12#8, 0xFF#8]).pc ≤ 254 ∧
      (rootAt 254 [0x12#8, 0xFF#8]).readByte .root 254 = 0x12#8 ∧
      (rootAt 254 [0x12#8, 0xFF#8]).readByte .root 255 = 0xFF#8) ∧
    (rootAt 255 [0x12#8]).ready ∧ (rootAt 255 [0x12#8]).readByte .root 255 = 0x12#8 := by decide

theorem witness_RetReturnsOrEnds :
    (rootAt 255 [0x13#8]).cur = .root ∧
    ((modAt 0#8 17 [0x13#8]).cur = .mod 0#8 ∧
      (modAt 0#8 17 [0x13#8]).cs = ⟨5, .root, ⟨3#8, 0#8, 0#8, 0#8⟩⟩ :: []) ∧
    (modAt 0#8 17 [0x13#8]).Inv ∧
    (rootAt 255 [0x13#8]).ready ∧ (rootAt 255 [0x13#8]).pc ≤ 255 ∧
    (rootAt 255 [0x13#8]).readByte .root 255 = 0x13#8 :=
  ⟨rfl, ⟨rfl, rfl⟩, inv_modAt, by decide⟩

theorem witness_RetWithoutFrameStops :
    (let s := { modAt 0#8 17 [0x13#8] with cs := [] }
     s.cur = .mod 0#8 ∧ s.cs = []) ∧
    (modAt 0#8 17 [0x13#8]).cur = .mod 0#8 ∧ (modAt 0#8 17 [0x13#8]).cs ≠ [] := by decide

theorem witness_HaltStopsMachine : (rootAt 255 [0x14#8]).ready ∧ (rootAt 255 [0x14#8]).pc ≤ 255 ∧
    (rootAt 255 [0x14#8]).readByte .root 255 = 0x14#8 := by decide

/-- A root state at a declaration of module 5 whose body is empty and ends at 255, with its slot filled. -/
def declState : State := withModule (rootAt 253 [0x15#8, 0x05#8, 0x13#8]) 5#8 255 [0x13#8]

theorem slotLoaded_declState : declState.SlotLoaded 5#8 255 := by
  have hb : ∀ a, declState.readByte (.mod 5#8) a = if a = 255 then 0x13#8 else 0x00#8 := by
    intro a
    change Memory.get [(255, 0x13#8)] a = _
    simp only [Memory.get, Sparse.get, eq_comm]
  refine ⟨rfl, by decide, by decide, by decide, by decide, fun a h1 h2 => ?_, fun a h => ?_, by decide, fun a h1 h2 => ?_⟩
  · obtain rfl : a = 255 := Nat.le_antisymm h2 h1
    decide
  · rw [hb, if_neg]
    rintro rfl
    revert h
    decide
  · exact absurd h2 (Nat.not_lt.mpr h1)

theorem witness_DeclarationSkipped :
    declState.cur = .root ∧
    (declState.pc + 2 ≤ 255 ∧ declState.root.get 255 = 0x13#8 ∧
      ∀ a, declState.pc + 2 ≤ a → a < 255 → declState.root.get a ≠ 0x13#8) ∧
    ((rootAt 255 [0x15#8]).cur = .root ∧
      ∀ a, (rootAt 255 [0x15#8]).pc + 2 ≤ a → a ≤ 255 → (rootAt 255 [0x15#8]).root.get a ≠ 0x13#8) ∧
    (declState.SlotLoaded 5#8 255 ∧ declState.pc + 2 = (declState.slot 5#8).bodyStart) ∧
    (rootAt 255 [0x15#8]).ready ∧ (rootAt 255 [0x15#8]).root.get 255 = 0x15#8 :=
  ⟨rfl, ⟨by decide, by decide, fun a h1 h2 => absurd (Nat.lt_of_le_of_lt h1 h2) (by decide)⟩,
    ⟨rfl, fun a h1 h2 => absurd (Nat.le_trans h1 h2) (by decide)⟩, ⟨slotLoaded_declState, by decide⟩, by decide⟩

theorem witness_MarkerInModuleFaults : (modAt 3#8 255 [0x15#8]).cur = .mod 3#8 ∧ (modAt 3#8 255 [0x15#8]).ready ∧
    (modAt 3#8 255 [0x15#8]).pc ≤ 255 ∧ (modAt 3#8 255 [0x15#8]).readByte (.mod 3#8) 255 = 0x15#8 := by decide

theorem witness_ReservedOpcodesFailFast :
    ∀ p ∈ [(Instr.run, 0x16#8), (Instr.cid, 0x17#8), (Instr.ld, 0x18#8), (Instr.ldc, 0x19#8), (Instr.out, 0x1A#8)],
      (rootAt 255 [p.2]).ready ∧ (rootAt 255 [p.2]).pc ≤ 255 ∧ (rootAt 255 [p.2]).readByte .root 255 = p.2 := by decide

theorem witness_DataInstructionsFrame :
    (∃ t, exec .nop (rootAt 0 []) = .next t) ∧ (∃ t, exec (.move 4#8 1#8) (rootAt 0 []) = .next t) ∧
    (∃ t, exec (.move 5#8 1#8) (rootAt 0 []) = .next t) ∧ (∃ t, exec (.add 1#8 1#8) (rootAt 0 []) = .next t) ∧
    ∃ t, exec (.add 1#8 0#8) (rootAt 0 []) = .next t :=
  ⟨⟨_, next_got (by decide)⟩, ⟨_, next_got (by decide)⟩, ⟨_, next_got (by decide)⟩, ⟨_, next_got (by decide)⟩,
    _, next_got (by decide)⟩

theorem witness_ControlInstructionsFrame :
    ∀ i ∈ [Instr.start 0#8, .start 255#8, .ret, .halt, .moduleMark, .run, .cid, .ld, .ldc, .out],
      ∃ t, exec i callState = .next t := by
  intro i h
  exact ⟨_, next_got ((by decide : ∀ i ∈ [Instr.start 0#8, .start 255#8, .ret, .halt, .moduleMark, .run, .cid, .ld,
    .ldc, .out], isNext (exec i callState) = true) i h)⟩

theorem witness_FaultsArePrecise :
    (∃ t, step (rootAt 256 []) = .next t ∧ t.status = .faulted) ∧
    ∃ t, step (rootAt 255 []) = .next t ∧ t.status ≠ .faulted :=
  ⟨⟨_, next_got (by decide), by decide⟩, _, next_got (by decide), by decide⟩

/-- A state whose step raises the given kind. -/
def raises (s : State) (k : FaultKind) : Prop :=
  s.Inv ∧ ∃ t, step s = .next t ∧ t.status = .faulted ∧ t.fault.kind = some k

theorem raises_of_check {s : State} {k : FaultKind} (h : (invCheck s && isNext (step s) &&
    decide ((got (step s)).status = .faulted) && decide ((got (step s)).fault.kind = some k)) = true) : raises s k := by
  simp only [Bool.and_eq_true, decide_eq_true_eq] at h
  exact ⟨inv_of_check h.1.1.1, _, next_got h.1.1.2, h.1.2, h.2⟩

theorem witness_FaultConditions :
    raises (rootAt 256 []) .outOfBounds ∧ raises (rootAt 254 [0x10#8, 0x01#8]) .outOfBounds ∧
    raises (rootAt 0 [0x10#8, 0x05#8]) .invalidRegister ∧ raises (rootAt 0 [0x12#8]) .unknownModule ∧
    raises (rootAt 254 [0x15#8, 0x05#8]) .malformedModule ∧ raises (rootAt 255 [0x15#8]) .malformedModule ∧
    raises (modAt 3#8 9 [0x15#8]) .malformedModule ∧
    raises { modAt 1#8 5 [0x12#8, 0x01#8] with params := ⟨1, none⟩ } .callStackExhausted ∧
    raises (rootAt 0 [0x0F#8]) .unknownOpcode ∧ raises (rootAt 0 [0x16#8]) .unknownOpcode :=
  ⟨raises_of_check (by decide), raises_of_check (by decide), raises_of_check (by decide), raises_of_check (by decide),
    raises_of_check (by decide), raises_of_check (by decide), raises_of_check (by decide), raises_of_check (by decide),
    raises_of_check (by decide), raises_of_check (by decide)⟩

/-- A state that meets every hypothesis of the second half of FaultConditions. -/
def mustRaise (s : State) (k : FaultKind) (info : Nat) : Prop := s.Inv ∧ s.ready ∧ raisesWhen s k info

theorem mustRaise_of_check {s : State} {k : FaultKind} {info : Nat} (h : (invCheck s && decide s.ready) = true)
    (hr : raisesWhen s k info) : mustRaise s k info := by
  simp only [Bool.and_eq_true, decide_eq_true_eq] at h
  exact ⟨inv_of_check h.1, h.2, hr⟩

/-- Every condition of the second half, at the ends of the ranges of pc. -/
theorem witness_FaultConditions_raise :
    mustRaise (rootAt 256 []) .outOfBounds 256 ∧ mustRaise (rootAt 254 [0x10#8]) .outOfBounds 256 ∧
    mustRaise (rootAt 255 [0x11#8]) .outOfBounds 256 ∧ mustRaise (rootAt 255 [0x12#8]) .outOfBounds 256 ∧
    mustRaise (rootAt 253 [0x10#8, 0x05#8]) .invalidRegister 5 ∧
    mustRaise (rootAt 253 [0x11#8, 0x04#8, 0x00#8]) .invalidRegister 0 ∧
    mustRaise (rootAt 254 [0x12#8, 0xFF#8]) .unknownModule 255 ∧
    mustRaise (rootAt 254 [0x15#8, 0x05#8]) .malformedModule 5 ∧
    mustRaise (rootAt 255 [0x15#8]) .malformedModule 256 ∧ mustRaise (modAt 3#8 255 [0x15#8]) .malformedModule 3 ∧
    mustRaise { modAt 1#8 254 [0x12#8, 0x01#8] with params := ⟨1, none⟩ } .callStackExhausted 1 ∧
    mustRaise (rootAt 255 [0x01#8]) .unknownOpcode 1 ∧ mustRaise (rootAt 255 [0x0F#8]) .unknownOpcode 15 ∧
    mustRaise (rootAt 255 [0x16#8]) .unknownOpcode 0x16 ∧ mustRaise (rootAt 255 [0xFF#8]) .unknownOpcode 255 := by
  refine ⟨mustRaise_of_check (by decide) ?_, mustRaise_of_check (by decide) ?_, mustRaise_of_check (by decide) ?_,
    mustRaise_of_check (by decide) ?_, mustRaise_of_check (by decide) ?_, mustRaise_of_check (by decide) ?_,
    mustRaise_of_check (by decide) ?_, mustRaise_of_check (by decide) ?_, mustRaise_of_check (by decide) ?_,
    mustRaise_of_check (by decide) ?_, mustRaise_of_check (by decide) ?_, mustRaise_of_check (by decide) ?_,
    mustRaise_of_check (by decide) ?_, mustRaise_of_check (by decide) ?_, mustRaise_of_check (by decide) ?_⟩
  · exact ⟨rfl, .inl rfl⟩
  · exact ⟨rfl, .inr (.inl (by decide))⟩
  · exact ⟨rfl, .inr (.inl (by decide))⟩
  · exact ⟨rfl, .inr (.inr (by decide))⟩
  · exact ⟨by decide, .inl (by decide)⟩
  · exact ⟨by decide, .inr (by decide)⟩
  · exact ⟨by decide, by decide, by decide, by decide⟩
  · exact ⟨by decide, by decide, .inl ⟨rfl, fun a h1 h2 => absurd (Nat.le_trans h1 h2) (by decide), by decide⟩⟩
  · exact ⟨by decide, by decide, .inl ⟨rfl, fun a h1 h2 => absurd (Nat.le_trans h1 h2) (by decide), by decide⟩⟩
  · exact ⟨by decide, by decide, .inr ⟨3#8, rfl, rfl⟩⟩
  · exact ⟨by decide, by decide, by decide, by decide, by decide⟩
  · exact ⟨by decide, by decide, .inl (by decide)⟩
  · exact ⟨by decide, by decide, .inl (by decide)⟩
  · exact ⟨by decide, by decide, .inr (by decide)⟩
  · exact ⟨by decide, by decide, .inr (by decide)⟩

theorem witness_StepsCountCompletedSteps :
    (∃ t, step (rootAt 256 []) = .next t ∧ t.status = .faulted) ∧
    (∃ t, step { rootAt 0 [] with params := ⟨2, some 0⟩ } = .next t ∧ t.status = .cancelled) ∧
    (∃ t, step (rootAt 0 []) = .next t ∧ t.status = .running) ∧
    (∃ t, step (rootAt 0 [0x13#8]) = .next t ∧ t.status = .done) ∧
    ∃ t, step (rootAt 0 [0x14#8]) = .next t ∧ t.status = .halted :=
  ⟨⟨_, next_got (by decide), by decide⟩, ⟨_, next_got (by decide), by decide⟩, ⟨_, next_got (by decide), by decide⟩,
    ⟨_, next_got (by decide), by decide⟩, _, next_got (by decide), by decide⟩

/-- `callState` after its START. -/
def calledState : State := got (step callState)
/-- `calledState` after the callee's RET. -/
def returnedState : State := got (step calledState)

theorem step_callState : step callState = .next calledState := next_got (by decide)
theorem step_calledState : step calledState = .next returnedState := next_got (by decide)
theorem after_calledState : calledState.after 1 = some returnedState := after_one step_calledState

theorem witness_MemoriesConstantInRun : calledState.after 1 = some returnedState := after_calledState

theorem witness_TableWritersAreLoaderAndStart :
    (step callState = .next calledState ∧ calledState.slot 0#8 ≠ callState.slot 0#8) ∧
    ∃ t, idle.loadImage oneModule = .next t :=
  ⟨⟨step_callState, by decide⟩, _, load_oneModule⟩

/-- `callState` with other records in the slot of module 0 and in an empty slot. -/
def otherRecords : State :=
  { callState with
    mt := (callState.mt.setSlot 0#8 { callState.slot 0#8 with caller := ⟨false, 7#8⟩, entry := true }).setSlot 9#8
      { callState.slot 9#8 with entryLocation := 256 } }

theorem otherRecords_slot (m : Byte) : otherRecords.slot m =
    if m = 9#8 then { callState.slot 9#8 with entryLocation := 256 }
    else if m = 0#8 then { callState.slot 0#8 with caller := ⟨false, 7#8⟩, entry := true } else callState.slot m := by
  simp only [otherRecords, State.slot, ModuleTable.slot_setSlot]

theorem witness_TableRecordsSteerNothing : callState.SameForEngine otherRecords ∧ step callState = .next calledState := by
  refine ⟨⟨rfl, fun m => ?_, fun m => ?_, fun c a => ?_⟩, step_callState⟩
  · rw [otherRecords_slot]
    split_ifs with h1 h2
    · rw [h1]
    · rw [h2]
    · rfl
  · rw [otherRecords_slot]
    split_ifs with h1 h2
    · rw [h1]
    · rw [h2]
    · rfl
  · cases c with
    | root => rfl
    | mod m =>
      change (otherRecords.slot m).privateMemory.get a = (callState.slot m).privateMemory.get a
      rw [otherRecords_slot]
      split_ifs with h1 h2
      · rw [h1]
      · rw [h2]
      · rfl

theorem witness_ModulesAreSeparated :
    let s := modAt 0#8 17 [0x13#8]
    let u := { s with root := [(17, 0x14#8)] }
    s.cur = .mod 0#8 ∧ u = { s with root := u.root, mt := u.mt } ∧
    (∀ a, a ≤ 255 → u.readByte (.mod 0#8) a = s.readByte (.mod 0#8) a) ∧
    (∀ k : Byte, (u.slot k).occupied = (s.slot k).occupied ∧ (u.slot k).bodyStart = (s.slot k).bodyStart) ∧
    ∃ t, step s = .next t :=
  ⟨rfl, rfl, fun _ _ => rfl, fun _ => ⟨rfl, rfl⟩, _, next_got (by decide)⟩

theorem witness_ResetPutsEveryValue : (got (step (rootAt 0 [0x13#8]))).status.isTerminal = true ∧
    ∃ u, hostAction .reset (got (step (rootAt 0 [0x13#8]))) = .next u := ⟨by decide, _, rfl⟩

theorem witness_TerminalStatusesAreFinal : (got (step (rootAt 0 [0x14#8]))).status.isTerminal = true ∧
    ∃ u, hostAction .reset (got (step (rootAt 0 [0x14#8]))) = .next u := ⟨by decide, _, rfl⟩

theorem witness_LoadImageStartsRun :
    callState.status ≠ .idle ∧ (idle.status = .idle ∧ ([] : List Byte).length ≠ 256) ∧
    (idle.status = .idle ∧ oneModule.length = 256 ∧ idle.loadImage oneModule = .next loadedState ∧
      loadedState.status = .running) ∧
    twiceDeclared.length = 256 ∧ ∃ t, idle.loadImage twiceDeclared = .next t ∧ t.status = .faulted :=
  ⟨by decide, ⟨rfl, by decide⟩, ⟨rfl, test_loader.2.2.2.1.1, load_oneModule, loadedState_running⟩,
    test_loader.2.2.2.1.2, _, load_twiceDeclared, test_loader.2.2.1.2⟩

theorem witness_LoaderFaultOutcome : idle.status = .idle ∧ twiceDeclared.length = 256 ∧
    load (Memory.ofBytesAt 0 twiceDeclared) = .failed ⟨.duplicateModule, 3, 1⟩ :=
  ⟨rfl, test_loader.2.2.2.1.2, test_loader.1.1⟩

theorem witness_LoaderMeetsScan :
    (∃ mt, load (Memory.ofBytesAt 0 oneModule) = .table mt ∧ (mt.slot 1#8).occupied = true ∧
      (mt.slot 0#8).occupied = false) ∧
    DeclaredAt (Memory.ofBytesAt 0 oneModule) 0 1#8 ∧
    load (Memory.ofBytesAt 0 twiceDeclared) = .failed ⟨.duplicateModule, 3, 1⟩ ∧
    load (Memory.ofBytesAt 255 [0x15#8]) = .failed ⟨.malformedModule, 255, 256⟩ := by
  obtain ⟨h1, ⟨-, hr, -, ho, hz, -, hm, hi⟩, -⟩ := test_loader
  refine ⟨?_, ⟨.start, by decide, hm, hi⟩, h1.1, h1.2.2.1⟩
  obtain ⟨-, -, ⟨mt, hl, ht⟩ | ⟨f, -, ht⟩⟩ := State.loadImage_cases _ _ _ load_oneModule
  · rw [ht] at ho hz
    exact ⟨mt, hl, ho, hz⟩
  · rw [ht] at hr
    cases hr

theorem witness_ModulesStayLoaded :
    idle.loadImage oneModule = .next loadedState ∧ loadedState.status = .running ∧
    loadedState.after 0 = some loadedState ∧ loadedState.after 1 = some (got (step loadedState)) :=
  ⟨load_oneModule, loadedState_running, rfl, after_one step_loadedState⟩

theorem witness_HostObserves : callState.status = .running ∧ idle.status ≠ .running ∧
    (got (step (rootAt 0 [0x13#8]))).status ≠ .running := by decide

theorem witness_InvariantHoldsAtReset : 1 ≤ (⟨1, none⟩ : Params).maxDepth := by decide

theorem witness_InvariantKeptByStep : callState.Inv ∧ step callState = .next calledState :=
  ⟨inv_callState, step_callState⟩

theorem witness_InvariantKeptByHost : idle.Inv ∧ callState.Inv ∧ (∃ t, hostAction .reset callState = .next t) ∧
    (∃ t, hostAction (.loadImage oneModule) idle = .next t) ∧
    ∃ t, hostAction (.loadImage twiceDeclared) idle = .next t :=
  ⟨inv_of_check (by decide), inv_callState, ⟨_, rfl⟩, ⟨_, load_oneModule⟩, _, load_twiceDeclared⟩

theorem witness_StackMatchesContext :
    callState.Inv ∧ (step callState = .next calledState ∧ calledState.depth = callState.depth + 1 ∧
      calledState.after 0 = some calledState ∧
      (∀ k v, k ≤ 0 → calledState.after k = some v → calledState.depth ≤ v.depth) ∧
      calledState.depth = calledState.depth) := by
  refine ⟨inv_callState, step_callState, by decide, rfl, fun k v hk h => ?_, rfl⟩
  obtain rfl := Nat.le_zero.mp hk
  cases h
  exact Nat.le_refl _

theorem witness_RunsAreSafe : callState.Inv := inv_callState

theorem witness_EveryRunEnds : callState.Inv ∧ callState.status = .running := ⟨inv_callState, rfl⟩

theorem witness_CallReturnLaw :
    step callState = .next calledState ∧ calledState.depth = callState.depth + 1 ∧
    calledState.after 1 = some returnedState ∧ returnedState.depth = callState.depth ∧
    ∀ k v, k < 1 → calledState.after k = some v → callState.depth < v.depth := by
  refine ⟨step_callState, by decide, after_calledState, by decide, fun k v hk h => ?_⟩
  obtain rfl := Nat.lt_one_iff.mp hk
  cases h
  decide

theorem witness_WalkingOffTheEnd :
    (rootAt 254 []).status = .running ∧ (rootAt 254 []).params.stepBudget = none ∧ (rootAt 254 []).pc ≤ 256 ∧
    ∀ a, (rootAt 254 []).pc ≤ a → a ≤ 255 → (rootAt 254 []).readByte (rootAt 254 []).cur a = 0x00#8 :=
  ⟨rfl, rfl, by decide, fun _ _ _ => rfl⟩

theorem witness_RegisterFileLaws : Reg.ax ≠ Reg.dx ∧ byteOfReg .dx = byteOfReg .dx := by decide

theorem witness_AssembledDeclarationSkipped :
    let d : Declaration := ⟨5#8, [.move 1#8 0x2A#8]⟩
    let s := rootAt 250 [0x15#8, 0x05#8, 0x10#8, 0x01#8, 0x2A#8, 0x13#8]
    d.wellFormed = true ∧ s.cur = .root ∧ s.pc + d.encode.length ≤ 256 ∧
      ∀ (n : Nat) (h : n < d.encode.length), s.root.get (s.pc + n) = d.encode[n] := by decide

end Sys2Proof.Tests
end

/-! PROOF. The family spec/10_state.md: the kinds of step, the facts about runs, the table and the Loader that the
statements share, and the statements themselves, tier 3 first. -/

namespace Sys2Proof.Machine

open Sys2Proof

/-! ### The kinds of step

`Effect` lists what each instruction does. The state's invariants need less: whether the step cancels, raises, stays in
its context, calls or returns. -/

/-- The five kinds of next state a step can have (spec/40_cycle.md R98). -/
inductive StepKind (s : State) : State → Prop where
  /-- The step budget is spent (R92). -/
  | cancelled : StepKind s s.cancel
  /-- A fault; from a pc in range its information value is in range (spec/60_exceptions.md R130). -/
  | raised {k : FaultKind} {info : Nat} (hi : s.pc ≤ 256 → info ≤ 256) : StepKind s (s.raise k info)
  /-- A completed instruction that neither calls nor returns. -/
  | stayed {x : Regs} {p : Nat} {st : Status} (hp : p ≤ 256) (hst : st = .running ∨ st = .done ∨ st = .halted) :
      StepKind s { s with regs := x, pc := p, status := st, steps := s.steps + 1 }
  /-- A completed START (spec/42_control.md R110). -/
  | called {m : Byte} {rest : List Byte} (hd : decode s.fetchBytes = .instr (.start m) rest)
      (hlt : s.depth < s.params.maxDepth) : StepKind s (s.enterModule m).commit
  /-- A RET to the top frame (R112). -/
  | returned {m : Byte} {f : Frame} {rest : List Frame} (hcur : s.cur = .mod m) (hcs : s.cs = f :: rest) :
      StepKind s (s.returnTo f rest).commit

/-- What a fetched instruction does is of one of the kinds. -/
theorem Effect.stepKind {s t : State} {i : Instr} {rest : List Byte} (h : Effect s i t) (hr : s.status = .running)
    (hd : decode s.fetchBytes = .instr i rest) : StepKind s t := by
  have hend : s.pc + i.length ≤ 256 := (s.fetched_fits i rest hd).1
  cases h with
  | nop => exact .stayed hend (.inl hr)
  | move _ => exact .stayed hend (.inl hr)
  | add _ _ => exact .stayed hend (.inl hr)
  | start _ hlt => exact .called hd hlt
  | retDone _ => exact .stayed (Nat.le_of_add_right_le hend) (.inr (.inl rfl))
  | ret hcur hcs => exact .returned hcur hcs
  | halt => exact .stayed (Nat.le_of_add_right_le hend) (.inr (.inr rfl))
  | skip _ ht =>
    obtain ⟨-, hle, -⟩ := (findRet_eq_some_iff _ _ _).mp ht
    exact .stayed (Nat.succ_le_succ hle) (.inl hr)
  | skipBad _ _ =>
    refine .raised fun _ => ?_
    split
    · exact (BitVec.isLt _).le
    · exact le_rfl
  | moveBad _ | addBadDst _ | addBadSrc _ _ | startUnknown _ | startExhausted _ _ | nested _ =>
    exact .raised fun _ => (BitVec.isLt _).le
  | run | cid | ld | ldc | out => exact .raised fun _ => (BitVec.isLt _).le

/-- A step is taken while RUNNING only (spec/40_cycle.md R90), and is of one of the kinds. -/
theorem step_kind {s t : State} (h : step s = .next t) : s.status = .running ∧ StepKind s t := by
  obtain ⟨hr, ⟨-, rfl⟩ | ⟨-, ⟨-, -, rfl⟩ | ⟨b0, -, rfl⟩ | ⟨i, rest, hd, he⟩⟩⟩ := step_cases s t h
  · exact ⟨hr, .cancelled⟩
  · refine ⟨hr, .raised fun hpc => ?_⟩
    rw [State.fetchBytes_length]
    omega
  · exact ⟨hr, .raised fun _ => (BitVec.isLt _).le⟩
  · exact ⟨hr, he.stepKind hr hd⟩

/-- A step that neither calls nor returns writes nothing outside X, pc, status, the fault record and `steps`. -/
theorem StepKind.sameOutside_or {s t : State} (h : StepKind s t) :
    s.SameOutside t ∨
    (∃ m rest, decode s.fetchBytes = .instr (.start m) rest ∧ t = (s.enterModule m).commit) ∨
    (∃ f rest, s.cs = f :: rest ∧ t = (s.returnTo f rest).commit) := by
  cases h with
  | cancelled | raised _ | stayed _ _ => exact .inl ⟨rfl, rfl, rfl, rfl, rfl, fun _ _ => rfl⟩
  | called hd _ => exact .inr (.inl ⟨_, _, hd, rfl⟩)
  | returned _ hcs => exact .inr (.inr ⟨_, _, hcs, rfl⟩)

theorem State.SameOutside.slot_eq {s t : State} (h : s.SameOutside t) (m : Byte) : t.slot m = s.slot m :=
  congrArg (·.slot m) h.mt_eq

theorem State.SameOutside.depth_eq {s t : State} (h : s.SameOutside t) : t.depth = s.depth :=
  congrArg List.length h.cs_eq

/-! ### When a step has a next state -/

theorem step_of_budgetSpent {s : State} (hr : s.status = .running) (hb : s.budgetSpent = true) :
    step s = .next s.cancel := by
  simp [step, nextAction, hr, hb]

theorem withReg_progress {b : Byte} {s : State} {k : Reg → Host.Outcome State Fault Refusal}
    (h : ∀ r, ∃ t, k r = .next t) : ∃ t, withReg b s k = .next t := by
  cases hb : regOfByte b with
  | none => exact ⟨_, withReg_none b s k hb⟩
  | some r => rw [withReg_some b s k r hb]; exact h r

/-- Only a RET without a frame stops an instruction (log entry 3). -/
theorem exec_progress {s : State} (hcs : s.cur ≠ .root → s.cs ≠ []) (i : Instr) : ∃ t, exec i s = .next t := by
  cases i with
  | move reg imm => exact withReg_progress fun _ => ⟨_, rfl⟩
  | add dst src => exact withReg_progress fun _ => withReg_progress fun _ => ⟨_, rfl⟩
  | start m =>
    cases ho : (s.slot m).occupied with
    | false => exact ⟨_, (exec_next_iff _ _ _).mpr (.startUnknown ho)⟩
    | true =>
      rcases Nat.lt_or_ge s.depth s.params.maxDepth with hlt | hge
      · exact ⟨_, (exec_next_iff _ _ _).mpr (.start ho hlt)⟩
      · exact ⟨_, (exec_next_iff _ _ _).mpr (.startExhausted ho hge)⟩
  | ret =>
    cases hcur : s.cur with
    | root => exact ⟨_, (exec_next_iff _ _ _).mpr (.retDone hcur)⟩
    | mod m =>
      obtain ⟨f, rest, hf⟩ := List.exists_cons_of_ne_nil (hcs (by simp [hcur]))
      exact ⟨_, (exec_next_iff _ _ _).mpr (.ret hcur hf)⟩
  | moduleMark =>
    cases hcur : s.cur with
    | mod m => exact ⟨_, (exec_next_iff _ _ _).mpr (.nested hcur)⟩
    | root =>
      cases hf : findRet s.root (s.pc + 2) with
      | none => exact ⟨_, (exec_next_iff _ _ _).mpr (.skipBad hcur hf)⟩
      | some t => exact ⟨_, (exec_next_iff _ _ _).mpr (.skip hcur hf)⟩
  | nop | halt | run | cid | ld | ldc | out => exact ⟨_, rfl⟩

/-- In the root context, or with a frame on the stack, a RUNNING engine has a step. -/
theorem step_progress {s : State} (hr : s.status = .running) (hcs : s.cur ≠ .root → s.cs ≠ []) :
    ∃ t, step s = .next t := by
  cases hb : s.budgetSpent with
  | true => exact ⟨_, step_of_budgetSpent hr hb⟩
  | false =>
    rw [step_of_ready s ⟨hr, hb⟩]
    cases decode s.fetchBytes with
    | instr i rest => exact exec_progress hcs i
    | missing n => exact ⟨_, rfl⟩
    | illegal b0 => exact ⟨_, rfl⟩

/-! ### Runs -/

theorem State.after_succ_iff {s u : State} {n : Nat} :
    s.after (n + 1) = some u ↔ ∃ t, step s = .next t ∧ t.after n = some u := by
  rw [State.after]
  cases step s <;> simp

/-- What every step keeps holds after any number of steps. -/
theorem State.after_induct {P : State → Prop} (keep : ∀ s t, P s → step s = .next t → P t) {n : Nat} {s u : State}
    (hs : P s) (h : s.after n = some u) : P u := by
  induction n generalizing s with
  | zero => cases h; exact hs
  | succ n ih =>
    obtain ⟨t, hst, htu⟩ := State.after_succ_iff.mp h
    exact ih (keep s t hs hst) htu

/-! ### The call stack and the context (R38, R39) -/

theorem stackFits_nil_iff {c : Ctx} : stackFits c [] = true ↔ c = .root := by
  cases c <;> simp [stackFits]

theorem stackFits_cons_iff {c : Ctx} {f : Frame} {rest : List Frame} :
    stackFits c (f :: rest) = true ↔ (∃ m, c = .mod m) ∧ f.retPc ≤ 256 ∧ stackFits f.retCtx rest = true := by
  cases c <;> simp [stackFits]

theorem root_iff_nil_of_stackFits {c : Ctx} {fs : List Frame} (h : stackFits c fs = true) : c = .root ↔ fs = [] := by
  cases fs with
  | nil => simp [stackFits_nil_iff.mp h]
  | cons f rest =>
    obtain ⟨⟨m, rfl⟩, -, -⟩ := stackFits_cons_iff.mp h
    simp

/-! ### The invariant, kind by kind -/

theorem faultFits_of_ne_faulted {st : Status} {f : FaultRecord} (h : st ≠ .faulted) :
    faultFits st f = true ↔ f = FaultRecord.clear := by
  simp [faultFits, h]

theorem faultFits_faulted {k : FaultKind} {p info : Nat} {c : Ctx} (hp : p ≤ 256) (hi : info ≤ 256) :
    faultFits .faulted ⟨some k, p, c, info⟩ = true := by
  simp [faultFits, hp, hi]

theorem State.Inv.fault_eq_clear {s : State} (h : s.Inv) (hr : s.status = .running) : s.fault = FaultRecord.clear :=
  (faultFits_of_ne_faulted (by simp [hr])).mp h.fault_fits

/-- A step that keeps the context, the stack and the memories has to care for the pc and the fault record only. -/
theorem State.Inv.of_sameOutside {s t : State} (h : s.Inv) (ho : s.SameOutside t) (hpc : t.pc ≤ 256)
    (hf : faultFits t.status t.fault = true) : t.Inv where
  pc_le := hpc
  stack := by rw [ho.cur_eq, ho.cs_eq]; exact h.stack
  depth_le := by rw [ho.depth_eq, ho.params_eq]; exact h.depth_le
  maxDepth_pos := by rw [ho.params_eq]; exact h.maxDepth_pos
  fault_fits := hf
  root_wf := by rw [ho.root_eq]; exact h.root_wf
  table_wf := by rw [ho.mt_eq]; exact h.table_wf
  records_fit m := by rw [ho.slot_eq]; exact h.records_fit m

theorem recordFits_iff {r : ModuleRecord} : recordFits r = true ↔ r.bodyStart ≤ 256 ∧ r.entryLocation ≤ 256 := by
  simp [recordFits]

theorem recordFits_entered {r : ModuleRecord} (h : recordFits r = true) (c : Ctx) (x : Regs) :
    recordFits (r.entered c x) = true := by
  obtain ⟨hb, -⟩ := recordFits_iff.mp h
  exact recordFits_iff.mpr ⟨hb, hb⟩

theorem State.Inv.enterModule {s : State} (h : s.Inv) (m : Byte) (hpc : s.pc + 2 ≤ 256)
    (hlt : s.depth < s.params.maxDepth) : (s.enterModule m).commit.Inv where
  pc_le := (recordFits_iff.mp (h.records_fit m)).1
  stack := stackFits_cons_iff.mpr ⟨⟨m, rfl⟩, hpc, h.stack⟩
  depth_le := hlt
  maxDepth_pos := h.maxDepth_pos
  fault_fits := h.fault_fits
  root_wf := h.root_wf
  table_wf := ModuleTable.wf_setSlot _ _ _ h.table_wf (ModuleTable.wf_slot _ h.table_wf m)
  records_fit k := by
    rw [State.commit_slot, State.enterModule_slot]
    split
    · exact recordFits_entered (h.records_fit m) _ _
    · exact h.records_fit k

theorem State.Inv.returnTo {s : State} {f : Frame} {rest : List Frame} (h : s.Inv) (hcs : s.cs = f :: rest) :
    (s.returnTo f rest).commit.Inv := by
  have hstack := h.stack
  have hdepth := h.depth_le
  rw [State.depth, hcs, List.length_cons] at hdepth
  rw [hcs] at hstack
  obtain ⟨-, hret, hrest⟩ := stackFits_cons_iff.mp hstack
  exact ⟨hret, hrest, Nat.le_of_succ_le hdepth, h.maxDepth_pos, h.fault_fits, h.root_wf, h.table_wf, h.records_fit⟩

/-- Every kind of step from a RUNNING state keeps the invariant. -/
theorem StepKind.inv {s t : State} (hk : StepKind s t) (hr : s.status = .running) (h : s.Inv) : t.Inv := by
  cases hk with
  | cancelled =>
    exact h.of_sameOutside ⟨rfl, rfl, rfl, rfl, rfl, fun _ _ => rfl⟩ h.pc_le
      ((faultFits_of_ne_faulted (by simp)).mpr (h.fault_eq_clear hr))
  | raised hi =>
    exact h.of_sameOutside ⟨rfl, rfl, rfl, rfl, rfl, fun _ _ => rfl⟩ h.pc_le (faultFits_faulted h.pc_le (hi h.pc_le))
  | stayed hp hst =>
    refine h.of_sameOutside ⟨rfl, rfl, rfl, rfl, rfl, fun _ _ => rfl⟩ hp
      ((faultFits_of_ne_faulted ?_).mpr (h.fault_eq_clear hr))
    rcases hst with rfl | rfl | rfl <;> simp
  | called hd hlt => exact h.enterModule _ (s.fetched_fits _ _ hd).1 hlt
  | returned _ hcs => exact h.returnTo hcs

theorem step_inv {s t : State} (h : s.Inv) (hst : step s = .next t) : t.Inv :=
  have ⟨hr, hk⟩ := step_kind hst
  hk.inv hr h

theorem step_params {s t : State} (h : step s = .next t) : t.params = s.params := by
  cases (step_kind h).2 <;> rfl

/-- Settles O40: each of the five kinds of step keeps the invariant, and none writes the parameters. -/
theorem invariantKeptByStep : Obligations.InvariantKeptByStep := by
  unfold Obligations.InvariantKeptByStep
  exact fun s t h hst => ⟨step_inv h hst, step_params hst⟩

/-! ### What the Loader wrote, in a run (R35, R46, spec/20_memory.md R64) -/

/-- ROOT, and of every slot the fields that the Loader alone writes, are the same. -/
structure State.SameLoaded (s t : State) : Prop where
  root_eq : t.root = s.root
  id_eq : ∀ m : Byte, (t.slot m).id = (s.slot m).id
  occupied_eq : ∀ m : Byte, (t.slot m).occupied = (s.slot m).occupied
  start_eq : ∀ m : Byte, (t.slot m).bodyStart = (s.slot m).bodyStart
  private_eq : ∀ m : Byte, (t.slot m).privateMemory = (s.slot m).privateMemory

theorem State.SameLoaded.refl (s : State) : s.SameLoaded s :=
  ⟨rfl, fun _ => rfl, fun _ => rfl, fun _ => rfl, fun _ => rfl⟩

theorem State.SameLoaded.trans {s t u : State} (h : s.SameLoaded t) (k : t.SameLoaded u) : s.SameLoaded u :=
  ⟨k.root_eq.trans h.root_eq, fun m => (k.id_eq m).trans (h.id_eq m), fun m => (k.occupied_eq m).trans (h.occupied_eq m),
    fun m => (k.start_eq m).trans (h.start_eq m), fun m => (k.private_eq m).trans (h.private_eq m)⟩

theorem State.SameLoaded.of_slot_eq {s t : State} (hroot : t.root = s.root) (h : ∀ m : Byte, t.slot m = s.slot m) :
    s.SameLoaded t :=
  ⟨hroot, fun m => by rw [h], fun m => by rw [h], fun m => by rw [h], fun m => by rw [h]⟩

theorem State.SameLoaded.sameMemories {s t : State} (h : s.SameLoaded t) : s.sameMemories t := by
  intro c a
  cases c with
  | root => exact congrArg (·.get a) h.root_eq
  | mod m => exact congrArg (·.get a) (h.private_eq m)

/-- A field that START does not write in the callee's record is the same in every slot. -/
theorem State.enterModule_slot_field (s : State) {α : Type} (field : ModuleRecord → α)
    (hf : ∀ r c x, field (ModuleRecord.entered r c x) = field r) (m k : Byte) :
    field ((s.enterModule m).slot k) = field (s.slot k) := by
  rw [State.enterModule_slot]
  split <;> rename_i hk
  · rw [hf, hk]
  · rfl

theorem State.sameLoaded_enterModule (s : State) (m : Byte) : s.SameLoaded (s.enterModule m) where
  root_eq := rfl
  id_eq := s.enterModule_slot_field (·.id) (fun _ _ _ => rfl) m
  occupied_eq := s.enterModule_slot_field (·.occupied) (fun _ _ _ => rfl) m
  start_eq := s.enterModule_slot_field (·.bodyStart) (fun _ _ _ => rfl) m
  private_eq := s.enterModule_slot_field (·.privateMemory) (fun _ _ _ => rfl) m

theorem step_sameLoaded {s t : State} (h : step s = .next t) : s.SameLoaded t := by
  rcases (step_kind h).2.sameOutside_or with ho | ⟨m, -, -, rfl⟩ | ⟨f, rest, -, rfl⟩
  · exact .of_slot_eq ho.root_eq ho.slot_eq
  · exact (s.sameLoaded_enterModule m).trans (.of_slot_eq rfl fun _ => rfl)
  · exact .of_slot_eq rfl fun _ => rfl

theorem after_sameLoaded {s t : State} {n : Nat} (h : s.after n = some t) : s.SameLoaded t :=
  State.after_induct (P := s.SameLoaded) (fun _ _ hs hst => hs.trans (step_sameLoaded hst)) (.refl s) h

/-- A loaded slot is told by ROOT and three fields of its record. -/
theorem State.SlotLoaded.congr {s u : State} {m : Byte} {t : Nat} (h : s.SlotLoaded m t) (hroot : u.root = s.root)
    (hid : (u.slot m).id = (s.slot m).id) (hstart : (u.slot m).bodyStart = (s.slot m).bodyStart)
    (hpriv : (u.slot m).privateMemory = (s.slot m).privateMemory) : u.SlotLoaded m t := by
  have hread : ∀ a, u.readByte (.mod m) a = s.readByte (.mod m) a := fun a => congrArg (·.get a) hpriv
  obtain ⟨id_eq, start_ge, start_le, term_le, declared, copied, zero_else, term_ret, no_ret_before⟩ := h
  constructor <;> simpa only [hid, hstart, hroot, hread]

theorem State.ModulesLoaded.of_sameLoaded {s u : State} (h : s.ModulesLoaded) (hsu : s.SameLoaded u) :
    u.ModulesLoaded := by
  intro m hm
  obtain ⟨t, ht⟩ := h m (hsu.occupied_eq m ▸ hm)
  exact ⟨t, ht.congr hsu.root_eq (hsu.id_eq m) (hsu.start_eq m) (hsu.private_eq m)⟩

/-! ### The Loader's table -/

/-- What the empty table has and every accepted declaration keeps, the table of a successful load has. -/
theorem load_table_induct {root : Memory} {P : ModuleTable → Prop} (start : P [])
    (accept : ∀ a mt t, P mt → root.get a = opModule → (mt.slot (root.get (a + 1))).occupied = false →
      findRet root (a + 2) = some t → P (acceptDeclaration root mt a (root.get (a + 1)) t))
    {mt : ModuleTable} (h : load root = .table mt) : P mt := by
  have hend := load_induct root (fun _ => P) start (fun _ _ hP _ _ => hP)
    (fun a mt t hP _ hop hfree hret => accept a mt t hP hop hfree hret)
  rw [h] at hend
  exact hend.choose_spec.2

@[simp] theorem State.startRun_slot (s : State) (root : Memory) (mt : ModuleTable) (m : Byte) :
    (s.startRun root mt).slot m = mt.slot m := rfl

theorem acceptDeclaration_slot_of_empty {root : Memory} {mt : ModuleTable} {a t : Nat} {mid : Byte}
    (h : mt.slot mid = ModuleRecord.empty) :
    (acceptDeclaration root mt a mid t).slot mid =
      { ModuleRecord.empty with
        occupied := true
        id := mid
        bodyStart := a + 2
        privateMemory := copyBytes root (List.range' (a + 2) (t + 1 - (a + 2))) [] } := by
  rw [acceptDeclaration_slot, if_pos rfl, h]
  rfl

/-- The declaration accepted into an empty slot is loaded there, body and terminator (spec/10_state.md R46). -/
theorem State.slotLoaded_accept (s : State) {root : Memory} {mt : ModuleTable} {a t : Nat} {mid : Byte}
    (hop : root.get a = opModule) (hempty : mt.slot mid = ModuleRecord.empty) (ht : findRet root (a + 2) = some t) :
    (s.startRun root (acceptDeclaration root mt a mid t)).SlotLoaded mid t := by
  obtain ⟨hle, ht255, hret, hbefore⟩ := (findRet_eq_some_iff _ _ _).mp ht
  have hslot := (s.startRun_slot root (acceptDeclaration root mt a mid t) mid).trans
    (acceptDeclaration_slot_of_empty hempty)
  have hread (x : Nat) : (s.startRun root (acceptDeclaration root mt a mid t)).readByte (.mod mid) x =
      if a + 2 ≤ x ∧ x ≤ t then root.get x else 0x00#8 := by
    rw [State.readByte, State.memory_mod, hslot]
    exact get_copied root (a + 2) t x hle
  have hstart : ((s.startRun root (acceptDeclaration root mt a mid t)).slot mid).bodyStart = a + 2 := by rw [hslot]
  exact {
    id_eq := by rw [hslot]
    start_ge := hstart ▸ Nat.le_add_left 2 a
    start_le := hstart ▸ hle
    term_le := ht255
    declared := by rw [hstart]; exact hop
    copied := fun x h1 h2 => (hread x).trans (if_pos ⟨hstart ▸ h1, h2⟩)
    zero_else := fun x hx => (hread x).trans (if_neg (by rw [hstart] at hx; omega))
    term_ret := (hread t).trans ((if_pos ⟨hle, le_rfl⟩).trans hret)
    no_ret_before := fun x h1 h2 => by
      rw [hstart] at h1
      rw [hread, if_pos ⟨h1, h2.le⟩]
      exact hbefore x h1 h2 }

/-- A table as the Loader builds it: what is not occupied is empty, what is occupied is loaded from `root`. -/
def ModuleTable.LoadedFrom (root : Memory) (s : State) (mt : ModuleTable) : Prop :=
  (∀ m : Byte, (mt.slot m).occupied = false → mt.slot m = ModuleRecord.empty) ∧ (s.startRun root mt).ModulesLoaded

theorem ModuleTable.LoadedFrom.accept {root : Memory} {s : State} {mt : ModuleTable} {a t : Nat} {mid : Byte}
    (h : mt.LoadedFrom root s) (hop : root.get a = opModule) (hfree : (mt.slot mid).occupied = false)
    (ht : findRet root (a + 2) = some t) : (acceptDeclaration root mt a mid t).LoadedFrom root s := by
  obtain ⟨hempty, hloaded⟩ := h
  refine ⟨fun m hm => ?_, fun m hm => ?_⟩
  · rw [acceptDeclaration_slot] at hm ⊢
    split at hm <;> rename_i hmid
    · cases hm
    · rw [if_neg hmid]
      exact hempty m hm
  · by_cases hmid : m = mid
    · subst hmid
      exact ⟨t, s.slotLoaded_accept hop (hempty m hfree) ht⟩
    · have hslot : (s.startRun root (acceptDeclaration root mt a mid t)).slot m = (s.startRun root mt).slot m :=
        (acceptDeclaration_slot root mt a mid t m).trans (if_neg hmid)
      rw [hslot] at hm
      obtain ⟨t', ht'⟩ := hloaded m hm
      exact ⟨t', ht'.congr rfl (congrArg _ hslot) (congrArg _ hslot) (congrArg _ hslot)⟩

/-- R46 where the run starts. -/
theorem State.modulesLoaded_startRun (s : State) {root : Memory} {mt : ModuleTable} (h : load root = .table mt) :
    (s.startRun root mt).ModulesLoaded :=
  (load_table_induct (P := ModuleTable.LoadedFrom root s) ⟨fun _ _ => rfl, fun _ hm => nomatch hm⟩
    (fun _ _ _ hP hop hfree hret => hP.accept hop hfree hret) h).2

/-- Settles O36: R46 holds where the run starts, by induction on the Loader's scan, and no step writes what it speaks of. -/
theorem modulesStayLoaded : Obligations.ModulesStayLoaded := by
  unfold Obligations.ModulesStayLoaded
  intro s t u bytes n hload hrun hn
  have hsame := after_sameLoaded hn
  obtain ⟨-, -, ⟨mt, hmt, rfl⟩ | ⟨f, -, rfl⟩⟩ := State.loadImage_cases s t bytes hload
  · exact ⟨(s.modulesLoaded_startRun hmt).of_sameLoaded hsame, hsame.sameMemories⟩
  · cases hrun

/-! ### Steps counted, and the table's writers -/

/-- Settles O26: a kind of step either counts and keeps running, or ends as DONE or HALTED; or it faults or cancels. -/
theorem stepsCountCompletedSteps : Obligations.StepsCountCompletedSteps := by
  unfold Obligations.StepsCountCompletedSteps
  intro s t h
  obtain ⟨hr, hk⟩ := step_kind h
  cases hk with
  | cancelled => simp
  | raised _ => simp
  | stayed _ hst => rcases hst with rfl | rfl | rfl <;> simp
  | called _ _ => simp [hr]
  | returned _ _ => simp [hr]

/-- The four fields START writes hold their reset values (R45). -/
def ModuleRecord.NotEntered (r : ModuleRecord) : Prop :=
  r.registerCache = Regs.zero ∧ r.caller = Caller.sentinel ∧ r.entry = false ∧ r.entryLocation = 0

theorem ModuleRecord.notEntered_empty : ModuleRecord.empty.NotEntered := ⟨rfl, rfl, rfl, rfl⟩

theorem load_notEntered {root : Memory} {mt : ModuleTable} (h : load root = .table mt) (m : Byte) :
    (mt.slot m).NotEntered := by
  refine load_table_induct (P := fun mt => ∀ m : Byte, (mt.slot m).NotEntered)
    (fun _ => ModuleRecord.notEntered_empty) (fun a mt t hP _ _ _ m => ?_) h m
  rw [acceptDeclaration_slot]
  split
  · exact hP (root.get (a + 1))
  · exact hP m

/-- The step that changes a slot is a START of that module. -/
theorem step_slot_ne {s t : State} {m : Byte} (h : step s = .next t) (hne : t.slot m ≠ s.slot m) :
    (∃ rest, decode s.fetchBytes = .instr (.start m) rest) ∧ t.slot m = (s.slot m).entered s.cur s.regs := by
  rcases (step_kind h).2.sameOutside_or with ho | ⟨k, rest, hd, rfl⟩ | ⟨f, rest, -, rfl⟩
  · exact absurd (ho.slot_eq m) hne
  · rw [State.commit_slot, State.enterModule_slot] at hne ⊢
    by_cases hk : m = k
    · subst hk
      exact ⟨⟨rest, hd⟩, if_pos rfl⟩
    · exact absurd (if_neg hk) hne
  · exact absurd rfl hne

/-- Settles O28: of the kinds of step only a START writes a slot, and the Loader's scan writes none of its four fields. -/
theorem tableWritersAreLoaderAndStart : Obligations.TableWritersAreLoaderAndStart := by
  unfold Obligations.TableWritersAreLoaderAndStart
  refine ⟨fun s t m h hne => ?_, fun s t bytes m h => ?_⟩
  · obtain ⟨hd, hslot⟩ := step_slot_ne h hne
    refine ⟨hd, hslot.trans ?_⟩
    cases s.cur <;> rfl
  · obtain ⟨-, -, ⟨mt, hmt, rfl⟩ | ⟨f, -, rfl⟩⟩ := State.loadImage_cases s t bytes h
    · exact load_notEntered hmt m
    · exact ModuleRecord.notEntered_empty

/-! ### Other tables, the same step (R37, spec/42_control.md R113) -/

/-- The state with another Module Table. -/
def State.withTable (s : State) (x : ModuleTable) : State := { s with mt := x }

theorem State.SameForEngine.exists_withTable {s u : State} (h : s.SameForEngine u) : ∃ x, u = s.withTable x :=
  ⟨u.mt, h.rest_eq⟩

/-- An instruction does to the state with another table what it does to this one; a START that calls writes its slot
there. Of the table the engine reads `occupied` here. -/
theorem Effect.withTable {s t : State} {i : Instr} {x : ModuleTable} (h : Effect s i t)
    (ho : ∀ m : Byte, (x.slot m).occupied = (s.slot m).occupied) :
    (t.mt = s.mt ∧ Effect (s.withTable x) i (t.withTable x)) ∨
    ∃ m, t = (s.enterModule m).commit ∧ Effect (s.withTable x) i ((s.withTable x).enterModule m).commit := by
  cases h with
  | nop => exact .inl ⟨rfl, .nop⟩
  | move h => exact .inl ⟨rfl, .move h⟩
  | moveBad h => exact .inl ⟨rfl, .moveBad h⟩
  | add hd hr => exact .inl ⟨rfl, .add hd hr⟩
  | addBadDst h => exact .inl ⟨rfl, .addBadDst h⟩
  | addBadSrc hd h => exact .inl ⟨rfl, .addBadSrc hd h⟩
  | startUnknown h => exact .inl ⟨rfl, .startUnknown ((ho _).trans h)⟩
  | startExhausted h hd => exact .inl ⟨rfl, .startExhausted ((ho _).trans h) hd⟩
  | start h hd => exact .inr ⟨_, rfl, .start ((ho _).trans h) hd⟩
  | retDone h => exact .inl ⟨rfl, .retDone h⟩
  | ret h hc => exact .inl ⟨rfl, .ret h hc⟩
  | halt => exact .inl ⟨rfl, .halt⟩
  | skip h ht => exact .inl ⟨rfl, .skip h ht⟩
  | skipBad h ht => exact .inl ⟨rfl, .skipBad h ht⟩
  | nested h => exact .inl ⟨rfl, .nested h⟩
  | run => exact .inl ⟨rfl, .run⟩
  | cid => exact .inl ⟨rfl, .cid⟩
  | ld => exact .inl ⟨rfl, .ld⟩
  | ldc => exact .inl ⟨rfl, .ldc⟩
  | out => exact .inl ⟨rfl, .out⟩

theorem State.SameForEngine.fetchBytes_eq {s u : State} (h : s.SameForEngine u) : u.fetchBytes = s.fetchBytes := by
  have hread := h.bytes_eq
  obtain ⟨x, rfl⟩ := h.exists_withTable
  rw [State.fetchBytes_eq, State.fetchBytes_eq]
  exact List.map_congr_left fun a _ => hread s.cur a

/-- Two tables that are the same for the engine stay so where neither is written. -/
theorem State.SameForEngine.of_table_kept {s t : State} {x : ModuleTable} (h : s.SameForEngine (s.withTable x))
    (hmt : t.mt = s.mt) : t.SameForEngine (t.withTable x) := by
  have hslot (m : Byte) : t.slot m = s.slot m := congrArg (·.slot m) hmt
  refine ⟨rfl, fun m => ?_, fun m => ?_, fun c a => ?_⟩
  · rw [hslot]; exact h.occupied_eq m
  · rw [hslot]; exact h.start_eq m
  · cases c with
    | root => rfl
    | mod m =>
      rw [State.readByte, State.readByte, State.memory_mod t, hslot]
      exact h.bytes_eq (.mod m) a

theorem State.SameForEngine.enterModule {s : State} {x : ModuleTable} (h : s.SameForEngine (s.withTable x))
    (m : Byte) : (s.enterModule m).commit.SameForEngine ((s.withTable x).enterModule m).commit where
  rest_eq := by
    have hstart : ((s.withTable x).slot m).bodyStart = (s.slot m).bodyStart := h.start_eq m
    simp only [State.commit, State.enterModule, hstart]
    rfl
  occupied_eq k := by
    rw [State.commit_slot, State.commit_slot, State.enterModule_slot_field _ (·.occupied) fun _ _ _ => rfl,
      State.enterModule_slot_field _ (·.occupied) fun _ _ _ => rfl]
    exact h.occupied_eq k
  start_eq k := by
    rw [State.commit_slot, State.commit_slot, State.enterModule_slot_field _ (·.bodyStart) fun _ _ _ => rfl,
      State.enterModule_slot_field _ (·.bodyStart) fun _ _ _ => rfl]
    exact h.start_eq k
  bytes_eq c a := by
    rw [State.commit_readByte, State.commit_readByte, State.enterModule_readByte, State.enterModule_readByte]
    exact h.bytes_eq c a

theorem Effect.sameForEngine {s t u : State} {i : Instr} (h : s.SameForEngine u) (he : Effect s i t) :
    ∃ v, Effect u i v ∧ t.SameForEngine v := by
  obtain ⟨x, rfl⟩ := h.exists_withTable
  rcases he.withTable h.occupied_eq with ⟨hmt, hv⟩ | ⟨m, rfl, hv⟩
  · exact ⟨_, hv, h.of_table_kept hmt⟩
  · exact ⟨_, hv, h.enterModule m⟩

/-- Settles O29: the front of the step reads the same bytes, and each instruction's effect is the same. -/
theorem tableRecordsSteerNothing : Obligations.TableRecordsSteerNothing := by
  unfold Obligations.TableRecordsSteerNothing
  intro s u t h hst
  have hfetch := h.fetchBytes_eq
  obtain ⟨x, rfl⟩ := h.exists_withTable
  obtain ⟨hr, ⟨hb, rfl⟩ | ⟨hb, hcases⟩⟩ := step_cases s t hst
  · exact ⟨_, step_of_budgetSpent hr hb, h.of_table_kept rfl⟩
  · rw [step_of_ready (s.withTable x) ⟨hr, hb⟩, hfetch]
    rcases hcases with ⟨-, hd, rfl⟩ | ⟨b0, hd, rfl⟩ | ⟨i, rest, hd, he⟩ <;> rw [hd]
    · exact ⟨_, rfl, h.of_table_kept rfl⟩
    · exact ⟨_, rfl, h.of_table_kept rfl⟩
    · obtain ⟨v, hv, htv⟩ := he.sameForEngine h
      exact ⟨v, (exec_next_iff _ v i).mpr hv, htv⟩

/-! ### Statuses -/

theorem State.runFor_of_not_running {s : State} (h : s.status ≠ .running) (n : Nat) : s.runFor n = .next s := by
  cases n with
  | zero => rfl
  | succ n => exact if_neg h

theorem hostAction_next_status {a : HostAction} {s t : State} (h : hostAction a s = .next t) :
    a = .reset ∨ s.status = .idle ∨ s.status = .running := by
  cases a with
  | reset => exact .inl rfl
  | loadImage bytes => exact .inr (.inl (State.loadImage_cases s t bytes h).1)
  | run =>
    refine .inr (.inr ?_)
    by_contra hr
    simp [hostAction, hr] at h

/-- Settles O32: a step needs RUNNING, LoadImage IDLE and Run RUNNING, and neither status is terminal. -/
theorem terminalStatusesAreFinal : Obligations.TerminalStatusesAreFinal := by
  unfold Obligations.TerminalStatusesAreFinal
  refine ⟨rfl, rfl, rfl, rfl, rfl, rfl, fun st => by cases st <;> decide, fun s hterm =>
    ⟨fun u hu => ?_, fun a u hu => ?_⟩⟩
  · rw [(step_kind hu).1] at hterm
    cases hterm
  · rcases hostAction_next_status hu with hreset | hs | hs
    · exact hreset
    · rw [hs] at hterm
      cases hterm
    · rw [hs] at hterm
      cases hterm

/-! ### Stack discipline in a run -/

/-- The stack `fs` in context `c` was reached from the stack `base` in context `b` with no return below it: nothing was
pushed, or the frames pushed lead back to `b`. -/
inductive StackAbove (b : Ctx) (base : List Frame) : Ctx → List Frame → Prop where
  | here : StackAbove b base b base
  | pushed {c : Ctx} {f : Frame} {fs : List Frame} (h : StackAbove b base f.retCtx fs) : StackAbove b base c (f :: fs)

theorem StackAbove.length_le {b c : Ctx} {base fs : List Frame} (h : StackAbove b base c fs) :
    base.length ≤ fs.length := by
  induction h with
  | here => exact le_rfl
  | pushed _ ih => exact Nat.le_succ_of_le ih

/-- Back at the depth of the base, the stack is the base and the context is its. -/
theorem StackAbove.eq_of_length {b c : Ctx} {base fs : List Frame} (h : StackAbove b base c fs)
    (hlen : fs.length = base.length) : c = b ∧ fs = base := by
  cases h with
  | here => exact ⟨rfl, rfl⟩
  | pushed h =>
    have := h.length_le
    simp only [List.length_cons] at hlen
    omega

theorem step_stackAbove {b : Ctx} {base : List Frame} {s t : State} (h : StackAbove b base s.cur s.cs)
    (hst : step s = .next t) (hdepth : base.length ≤ t.depth) : StackAbove b base t.cur t.cs := by
  rcases (step_kind hst).2.sameOutside_or with ho | ⟨m, -, -, rfl⟩ | ⟨f, rest, hcs, rfl⟩
  · rw [ho.cur_eq, ho.cs_eq]
    exact h
  · exact .pushed h
  · rw [State.commit_depth, State.returnTo_depth] at hdepth
    rw [hcs] at h
    cases h with
    | here => exact absurd hdepth (Nat.not_succ_le_self _)
    | pushed h => exact h

theorem after_stackAbove {b : Ctx} {base : List Frame} {n : Nat} {s u : State} (h : StackAbove b base s.cur s.cs)
    (hn : s.after n = some u) (hdepth : ∀ k v, k ≤ n → s.after k = some v → base.length ≤ v.depth) :
    StackAbove b base u.cur u.cs := by
  induction n generalizing s with
  | zero => cases hn; exact h
  | succ n ih =>
    obtain ⟨t, hst, htu⟩ := State.after_succ_iff.mp hn
    have hlater (k : Nat) (v : State) (hk : k ≤ n) (hv : t.after k = some v) : base.length ≤ v.depth :=
      hdepth (k + 1) v (Nat.succ_le_succ hk) (State.after_succ_iff.mpr ⟨t, hst, hv⟩)
    exact ih (step_stackAbove h hst (hlater 0 t (Nat.zero_le n) rfl)) htu hlater

/-- The step that makes the stack one frame deeper is a START, and it enters the module. -/
theorem step_depth_succ {s t : State} (h : step s = .next t) (hdepth : t.depth = s.depth + 1) :
    ∃ m rest, decode s.fetchBytes = .instr (.start m) rest ∧ t = (s.enterModule m).commit := by
  rcases (step_kind h).2.sameOutside_or with ho | ⟨m, rest, hd, rfl⟩ | ⟨f, rest, hcs, rfl⟩
  · have := ho.depth_eq
    omega
  · exact ⟨m, rest, hd, rfl⟩
  · have hs : s.depth = rest.length + 1 := congrArg List.length hcs
    rw [State.commit_depth, State.returnTo_depth] at hdepth
    omega

/-- Settles O42: the first half is the invariant's stack; the second follows the stack above the frame START pushed. -/
theorem stackMatchesContext : Obligations.StackMatchesContext := by
  unfold Obligations.StackMatchesContext
  refine ⟨fun s h => ?_, fun s t u n hst hdepth hn hkeep hback => ?_⟩
  · rw [root_iff_nil_of_stackFits h.stack]
    exact List.length_eq_zero_iff
  · obtain ⟨m, rest, hd, rfl⟩ := step_depth_succ hst hdepth
    exact ⟨m, rest, hd, ((after_stackAbove .here hn hkeep).eq_of_length hback).1⟩

/-! ### Safe runs -/

theorem State.Inv.stack_ne_nil {s : State} (h : s.Inv) (hcur : s.cur ≠ .root) : s.cs ≠ [] :=
  fun hcs => hcur ((root_iff_nil_of_stackFits h.stack).mpr hcs)

/-- Settles O43: a state that meets the invariant has a step while RUNNING, and the step keeps the invariant. -/
theorem runsAreSafe : Obligations.RunsAreSafe := by
  unfold Obligations.RunsAreSafe
  intro s n
  induction n generalizing s with
  | zero => exact fun _ => ⟨s, rfl⟩
  | succ n ih =>
    intro h
    by_cases hr : s.status = .running
    · obtain ⟨t, hst⟩ := step_progress hr h.stack_ne_nil
      obtain ⟨u, hu⟩ := ih t (step_inv h hst)
      exact ⟨u, by simp only [State.runFor, hr, hst, hu, if_true]⟩
    · exact ⟨s, State.runFor_of_not_running hr (n + 1)⟩

/-! ### What the host observes, reset, and the register file -/

/-- Settles O38: an observation holds the fields of the state themselves. -/
theorem hostObserves : Obligations.HostObserves := by
  unfold Obligations.HostObserves
  exact fun s => ⟨fun hr => if_pos hr, fun hr => ⟨_, if_neg hr, rfl, rfl, rfl, rfl, rfl, rfl, rfl, fun _ => rfl⟩⟩

theorem State.inv_resetWith {p : Params} (h : 1 ≤ p.maxDepth) : (State.resetWith p).Inv :=
  ⟨Nat.zero_le _, rfl, Nat.zero_le _, h, rfl, rfl, rfl, fun _ => rfl⟩

/-- Settles O39; MAX_DEPTH of `State.reset` is a successor, whatever number it is. -/
theorem invariantHoldsAtReset : Obligations.InvariantHoldsAtReset := by
  unfold Obligations.InvariantHoldsAtReset
  exact ⟨fun _ => State.inv_resetWith, State.inv_resetWith (Nat.le_add_left 1 Config.maxDepthLessOne)⟩

theorem byteOfReg_injective : Function.Injective byteOfReg := by
  intro r q h
  exact Option.some.inj (((regOfByte_eq_some_iff _ r).mpr rfl).symm.trans ((regOfByte_eq_some_iff _ q).mpr h))

/-- The identifier bytes are 1 to 4 (R21, R22). -/
theorem regOfByte_eq_none_iff (b : Byte) : regOfByte b = none ↔ b.toNat = 0 ∨ 5 ≤ b.toNat := by
  rw [regOfByte_eq_none_iff_ne]
  constructor
  · intro h
    have hax := h .ax
    have hbx := h .bx
    have hcx := h .cx
    have hdx := h .dx
    simp only [byteOfReg] at hax hbx hcx hdx
    bv_omega
  · rintro h r rfl
    revert h
    cases r <;> decide

/-- Settles O47: read after write, and an identifier byte names the register it belongs to and no other. -/
theorem registerFileLaws : Obligations.RegisterFileLaws := by
  unfold Obligations.RegisterFileLaws
  intro x r q v
  refine ⟨?_, fun hne => ?_, ?_, (regOfByte_eq_some_iff _ r).mpr rfl, fun h => byteOfReg_injective h,
    regOfByte_eq_none_iff⟩
  · rw [Regs.get_set, if_pos rfl]
  · rw [Regs.get_set, if_neg hne]
  · cases r <;> rfl

end Sys2Proof.Machine

/-! PROOF. The family spec/20_memory.md: no step writes a memory, and a module context reads no space but its own. -/

namespace Sys2Proof.Machine

open Sys2Proof

/-! ### Memories in a run (R54, R64) -/

/-- Settles O27: a run writes nothing that the Loader wrote, and the memories are part of that. -/
theorem memoriesConstantInRun : Obligations.MemoriesConstantInRun := by
  unfold Obligations.MemoriesConstantInRun
  intro n s t h
  have hsame := after_sameLoaded h
  exact ⟨hsame.root_eq, hsame.sameMemories, hsame.private_eq⟩

/-! ### Another ROOT, the same step in a module context (R53, R56) -/

/-- The state with another ROOT. -/
def State.withRoot (s : State) (r : Memory) : State := { s with root := r }

/-- Of ROOT only the declaration skip reads as data (spec/42_control.md R115), and in a module context there is none. -/
theorem Effect.withRoot {s t : State} {i : Instr} {m : Byte} (h : Effect s i t) (hcur : s.cur = .mod m) (r : Memory) :
    Effect (s.withRoot r) i (t.withRoot r) := by
  cases h with
  | skip hroot _ | skipBad hroot _ | retDone hroot => cases hcur.symm.trans hroot
  | nop => exact .nop
  | move h => exact .move h
  | moveBad h => exact .moveBad h
  | add hd hr => exact .add hd hr
  | addBadDst h => exact .addBadDst h
  | addBadSrc hd h => exact .addBadSrc hd h
  | startUnknown h => exact .startUnknown h
  | startExhausted h hd => exact .startExhausted h hd
  | start h hd => exact .start h hd
  | ret h hc => exact .ret h hc
  | halt => exact .halt
  | nested h => exact .nested h
  | run => exact .run
  | cid => exact .cid
  | ld => exact .ld
  | ldc => exact .ldc
  | out => exact .out

/-- With another table that agrees on `occupied` and `bodyStart`, an instruction does the same but for the table. -/
theorem Effect.exists_withTable {s t : State} {i : Instr} {x : ModuleTable} (h : Effect s i t)
    (ho : ∀ m : Byte, (x.slot m).occupied = (s.slot m).occupied)
    (hb : ∀ m : Byte, (x.slot m).bodyStart = (s.slot m).bodyStart) :
    ∃ y, Effect (s.withTable x) i (t.withTable y) := by
  rcases h.withTable ho with ⟨-, hv⟩ | ⟨m, rfl, hv⟩
  · exact ⟨x, hv⟩
  · have hcall : ((s.withTable x).enterModule m).commit =
        (s.enterModule m).commit.withTable ((s.withTable x).enterModule m).mt := by
      have hstart : ((s.withTable x).slot m).bodyStart = (s.slot m).bodyStart := hb m
      simp only [State.commit, State.enterModule, hstart]
      rfl
    exact ⟨_, hcall ▸ hv⟩

/-- A step fetches from the current context's space alone, at addresses 0..255 (R53). -/
theorem State.fetchBytes_congr {s u : State} (hcur : u.cur = s.cur) (hpc : u.pc = s.pc)
    (hread : ∀ a, a ≤ 255 → u.readByte s.cur a = s.readByte s.cur a) : u.fetchBytes = s.fetchBytes := by
  rw [State.fetchBytes_eq, State.fetchBytes_eq, hcur, hpc]
  refine List.map_congr_left fun a ha => hread a ?_
  obtain ⟨hle, hlt⟩ := List.mem_range'_1.mp ha
  omega

/-- Settles O30: the fetch reads PRIV[m] alone, and what is fetched reads of the rest `occupied` and `bodyStart` only. -/
theorem modulesAreSeparated : Obligations.ModulesAreSeparated := by
  unfold Obligations.ModulesAreSeparated
  intro s u t m hcur hu hread hslots hst
  obtain ⟨x, r, rfl⟩ : ∃ x r, u = (s.withTable x).withRoot r := ⟨u.mt, u.root, hu⟩
  have hfetch : ((s.withTable x).withRoot r).fetchBytes = s.fetchBytes :=
    State.fetchBytes_congr rfl rfl (hcur ▸ hread)
  obtain ⟨hr, ⟨hb, rfl⟩ | ⟨hb, hcases⟩⟩ := step_cases s t hst
  · exact ⟨_, step_of_budgetSpent hr hb, rfl⟩
  · rw [step_of_ready ((s.withTable x).withRoot r) ⟨hr, hb⟩, hfetch]
    rcases hcases with ⟨-, hd, rfl⟩ | ⟨b0, hd, rfl⟩ | ⟨i, rest, hd, he⟩ <;> rw [hd]
    · exact ⟨_, rfl, rfl⟩
    · exact ⟨_, rfl, rfl⟩
    · obtain ⟨y, hy⟩ := he.exists_withTable (fun k => (hslots k).1) fun k => (hslots k).2
      exact ⟨(t.withTable y).withRoot r, (exec_next_iff _ _ i).mpr (hy.withRoot hcur r), rfl⟩

end Sys2Proof.Machine

/-! PROOF. The family spec/30_encoding.md: the encoder against the decoder, the opcode map, and the declaration skip over
assembled bytes; tier 3 first. -/

namespace Sys2Proof

/-! ### The encoder (R70, R71, R73) -/

@[simp] theorem length_encode (i : Instr) : (encode i).length = i.length := by
  cases i <;> rfl

theorem head?_encode (i : Instr) : (encode i).head? = some i.opcode := by
  cases i <;> rfl

theorem Instr.length_pos (i : Instr) : 0 < i.length := by
  cases i <;> exact Nat.succ_pos _

theorem encode_of_length_eq_one {i : Instr} (h : i.length = 1) : encode i = [i.opcode] := by
  obtain ⟨b, hb⟩ := List.length_eq_one_iff.mp ((length_encode i).trans h)
  have hhead := head?_encode i
  rw [hb] at hhead ⊢
  rw [Option.some.inj hhead]

/-! ### The decoder is the encoder's inverse (R71, R73, R74) -/

theorem decode_encode_append (i : Instr) (rest : List Byte) : decode (encode i ++ rest) = .instr i rest := by
  cases i <;> rfl

/-- Whatever the shape of the first byte, the bytes read are those the encoder gives. -/
theorem eq_encode_append_of_decode {bs rest : List Byte} {i : Instr} (h : decode bs = .instr i rest) :
    bs = encode i ++ rest := by
  cases bs with
  | nil => cases h
  | cons b0 bs =>
    rcases decode_shapes b0 bs with ⟨j, hlen, rfl, e⟩ | ⟨rfl, e⟩ | ⟨rfl, e⟩ | ⟨rfl, e⟩ | ⟨-, e⟩ <;> rw [e] at h
    · cases h
      rw [encode_of_length_eq_one hlen]
      rfl
    · rcases operand2_cases .move bs with ⟨-, e⟩ | ⟨reg, imm, tail, rfl, e⟩ <;> rw [e] at h <;> cases h
      rfl
    · rcases operand2_cases .add bs with ⟨-, e⟩ | ⟨dst, src, tail, rfl, e⟩ <;> rw [e] at h <;> cases h
      rfl
    · rcases operand1_cases .start bs with ⟨-, e⟩ | ⟨mid, tail, rfl, e⟩ <;> rw [e] at h <;> cases h
      rfl
    · cases h

/-- Settles O2: one direction by the instruction's constructor, the other by the shape of the first byte. -/
theorem decodeEncodeInverse : Obligations.DecodeEncodeInverse := by
  unfold Obligations.DecodeEncodeInverse
  exact ⟨decode_encode_append, fun _ _ _ => eq_encode_append_of_decode⟩

/-! ### The opcode map (R74) -/

theorem Instr.opcode_not_illegal (i : Instr) :
    ¬((0x01 ≤ i.opcode.toNat ∧ i.opcode.toNat ≤ 0x0F) ∨ 0x1B ≤ i.opcode.toNat) := by
  cases i <;> simp only [Instr.opcode] <;> decide

/-- The illegal row is exactly the bytes that are no instruction's opcode. -/
theorem decode_eq_illegal_iff (b0 : Byte) (rest : List Byte) :
    decode (b0 :: rest) = .illegal b0 ↔ (0x01 ≤ b0.toNat ∧ b0.toNat ≤ 0x0F) ∨ 0x1B ≤ b0.toNat := by
  refine ⟨fun h => (decode_illegal _ _ h).2, fun hrow => ?_⟩
  rcases decode_shapes b0 rest with ⟨i, -, rfl, -⟩ | ⟨rfl, -⟩ | ⟨rfl, -⟩ | ⟨rfl, -⟩ | ⟨-, e⟩
  · exact absurd hrow i.opcode_not_illegal
  · exact absurd hrow (Instr.opcode_not_illegal (.move 0#8 0#8))
  · exact absurd hrow (Instr.opcode_not_illegal (.add 0#8 0#8))
  · exact absurd hrow (Instr.opcode_not_illegal (.start 0#8))
  · exact e

theorem eq_of_decode_cons_illegal {b0 b : Byte} {rest : List Byte} (h : decode (b0 :: rest) = .illegal b) : b = b0 :=
  (Option.some.inj (decode_illegal _ _ h).1).symm

/-- What an instruction leaves of the bytes after its opcode. -/
theorem drop_of_decode_cons {b0 : Byte} {bs rest : List Byte} {i : Instr} (h : decode (b0 :: bs) = .instr i rest) :
    bs.drop (i.length - 1) = rest := by
  calc bs.drop (i.length - 1)
      = (b0 :: bs).drop i.length := by
        rw [← Nat.sub_add_cancel i.length_pos, List.drop_succ_cons, Nat.add_sub_cancel]
    _ = (encode i ++ rest).drop (encode i).length := by rw [eq_encode_append_of_decode h, length_encode]
    _ = rest := List.drop_left

/-- Settles O3: with two bytes after the opcode none is missing, so a byte that is not illegal gives an instruction. -/
theorem opcodeMapIsTotal : Obligations.OpcodeMapIsTotal := by
  unfold Obligations.OpcodeMapIsTotal
  refine fun b0 rest => ⟨decode_eq_illegal_iff b0 rest, fun b => eq_of_decode_cons_illegal, fun hlen hlegal => ?_⟩
  cases hd : decode (b0 :: rest) with
  | instr i left =>
    have hop := (decode_instr _ _ _ hd).2
    exact ⟨i, (Option.some.inj hop).symm, by rw [drop_of_decode_cons hd]⟩
  | missing n =>
    obtain ⟨hn, hle⟩ := decode_missing _ _ hd
    rw [List.length_cons] at hn
    omega
  | illegal b => exact absurd (eq_of_decode_cons_illegal hd ▸ hd) hlegal

/-! ### An assembled declaration (R76, R80, R115) -/

/-- No byte of a body instruction ends the body (R176). -/
theorem opRet_notMem_encode {i : Instr} (h : i.bodyOk = true) : opRet ∉ encode i := by
  cases i with
  | ret | moduleMark => cases h
  | nop | halt | run | cid | ld | ldc | out => decide
  | move reg imm =>
    have hne : reg ≠ 0x13#8 ∧ imm ≠ 0x13#8 := by simpa [Instr.bodyOk] using h
    simp [encode, opMove, opRet, hne.1.symm, hne.2.symm]
  | add dst src =>
    have hne : dst ≠ 0x13#8 ∧ src ≠ 0x13#8 := by simpa [Instr.bodyOk] using h
    simp [encode, opAdd, opRet, hne.1.symm, hne.2.symm]
  | start mid =>
    have hne : mid ≠ 0x13#8 := by simpa [Instr.bodyOk] using h
    simp [encode, opStart, opRet, hne.symm]

theorem Declaration.opRet_notMem_body {d : Declaration} (h : d.wellFormed = true) :
    opRet ∉ d.body.flatMap Sys2Proof.encode := by
  intro hb
  obtain ⟨i, hi, hb⟩ := List.mem_flatMap.mp hb
  have hok : i.wellFormed = true ∧ i.bodyOk = true := by simpa using List.all_eq_true.mp h i hi
  exact opRet_notMem_encode hok.2 hb

end Sys2Proof

namespace Sys2Proof.Machine

open Sys2Proof

/-- The search stops at the terminator of the bytes it starts on. -/
theorem findRet_of_terminated {m : Memory} {a : Nat} {body : List Byte} (hbody : opRet ∉ body)
    (hend : a + body.length ≤ 255)
    (hread : ∀ (n : Nat) (h : n < (body ++ [opRet]).length), m.get (a + n) = (body ++ [opRet])[n]) :
    findRet m a = some (a + body.length) := by
  refine (findRet_eq_some_iff _ _ _).mpr ⟨Nat.le_add_right _ _, hend, ?_, fun x hax hx => ?_⟩
  · rw [hread body.length (by simp), List.getElem_concat_length rfl]
  · obtain ⟨n, rfl⟩ := Nat.exists_eq_add_of_le hax
    have hn : n < body.length := by omega
    rw [hread n (by simp; omega), List.getElem_append_left hn]
    exact fun e => hbody (e ▸ List.getElem_mem hn)

/-- Settles O48: the first 0x13 from `pc + 2` on is the declaration's own terminator. -/
theorem assembledDeclarationSkipped : Obligations.AssembledDeclarationSkipped := by
  unfold Obligations.AssembledDeclarationSkipped
  intro s d hwf hroot hfit hread
  have hlen : d.encode.length = (d.body.flatMap Sys2Proof.encode).length + 3 := by simp [Declaration.encode]
  have hfind : findRet s.root (s.pc + 2) = some (s.pc + 2 + (d.body.flatMap Sys2Proof.encode).length) := by
    refine findRet_of_terminated (Declaration.opRet_notMem_body hwf) (by omega) fun n hn => ?_
    rw [Nat.add_assoc, Nat.add_comm 2 n]
    exact hread (n + 2) (Nat.add_lt_add_right hn 2)
  have hpc : s.pc + d.encode.length = s.pc + 2 + (d.body.flatMap Sys2Proof.encode).length + 1 := by omega
  rw [hpc]
  exact (exec_next_iff _ _ _).mpr (.skip hroot hfind)

end Sys2Proof.Machine

namespace Sys2Proof

/-! ### The spec's examples (R81) -/

/-- Settles O1: the bytes by evaluating the encoder, and the way back by the general inverse law. -/
theorem specEncodingExamples : Obligations.SpecEncodingExamples := by
  unfold Obligations.SpecEncodingExamples
  exact ⟨rfl, rfl, rfl, rfl, rfl, rfl, rfl, rfl, fun _ => rfl,
    decode_encode_append .nop [], decode_encode_append (.move 1#8 4#8) [], decode_encode_append (.move 2#8 9#8) [],
    decode_encode_append (.add 1#8 2#8) [], decode_encode_append (.start 0x00#8) [],
    decode_encode_append (.start 0xFF#8) [], decode_encode_append .ret [], decode_encode_append .halt [],
    decode_encode_append .moduleMark [0x01#8]⟩

end Sys2Proof

/-! PROOF. The family spec/40_cycle.md: what a step does with the bytes it fetches, the step against the pseudocode of
R98, and the bound on the length of a run; tier 3 first. -/

namespace Sys2Proof.Machine

open Sys2Proof

/-! ### The step from its bytes (R93 to R96) -/

theorem step_of_decode {s : State} {i : Instr} {rest : List Byte} (hr : s.ready)
    (hd : decode s.fetchBytes = .instr i rest) : step s = exec i s := by
  rw [step_of_ready s hr, hd]

theorem step_of_pc_ge {s : State} (hr : s.ready) (hpc : 256 ≤ s.pc) : step s = .next (s.raise .outOfBounds s.pc) := by
  have hnil : s.fetchBytes = [] := List.eq_nil_of_length_eq_zero (by rw [State.fetchBytes_length]; omega)
  rw [step_of_ready s hr, hnil, decode_nil]
  rfl

theorem step_of_opcode {s : State} {i : Instr} (hr : s.ready) (hpc : s.pc < 256) (hlen : i.length = 1)
    (h0 : s.readByte s.cur s.pc = i.opcode) : step s = exec i s := by
  have hbytes := s.fetchBytes_cons hpc
  rw [h0, ← List.singleton_append, ← encode_of_length_eq_one hlen] at hbytes
  exact step_of_decode hr (hbytes ▸ decode_encode_append i _)

/-- One operand byte (format M): its address is checked, then the instruction executes with it (R95). -/
theorem step_operand1 {s : State} {b0 : Byte} {f : Byte → Instr} (hr : s.ready) (hpc : s.pc < 256)
    (h0 : s.readByte s.cur s.pc = b0) (hd : ∀ bs, decode (b0 :: bs) = operand1 f bs) :
    step s = if 256 ≤ s.pc + 1 then .next (s.raise .outOfBounds (s.pc + 1))
      else exec (f (s.readByte s.cur (s.pc + 1))) s := by
  rw [step_of_ready s hr, s.fetchBytes_cons hpc, h0, hd]
  split_ifs with h1
  · rw [show min 2 (255 - s.pc) = 0 by omega]
    rfl
  · rw [show min 2 (255 - s.pc) = min 1 (254 - s.pc) + 1 by omega, List.range'_succ]
    rfl

/-- Two operand bytes (formats RI and RR): their addresses are checked, the lower first, then the instruction executes
with them (R95). -/
theorem step_operand2 {s : State} {b0 : Byte} {f : Byte → Byte → Instr} (hr : s.ready) (hpc : s.pc < 256)
    (h0 : s.readByte s.cur s.pc = b0) (hd : ∀ bs, decode (b0 :: bs) = operand2 f bs) :
    step s = if 256 ≤ s.pc + 1 then .next (s.raise .outOfBounds (s.pc + 1))
      else if 256 ≤ s.pc + 2 then .next (s.raise .outOfBounds (s.pc + 2))
      else exec (f (s.readByte s.cur (s.pc + 1)) (s.readByte s.cur (s.pc + 2))) s := by
  rw [step_of_ready s hr, s.fetchBytes_cons hpc, h0, hd]
  split_ifs with h1 h2
  · rw [show min 2 (255 - s.pc) = 0 by omega]
    rfl
  · rw [show min 2 (255 - s.pc) = 1 by omega]
    rfl
  · rw [show min 2 (255 - s.pc) = 2 by omega]
    rfl

theorem exec_reserved {i : Instr} (h : 0x16 ≤ i.opcode.toNat) (s : State) :
    exec i s = .next (s.raise .unknownOpcode i.opcode.toNat) := by
  cases i with
  | run | cid | ld | ldc | out => rfl
  | nop | move _ _ | add _ _ | start _ | ret | halt | moduleMark =>
    exact absurd h (by simp only [Instr.opcode]; decide)

/-- A byte that is no opcode, or a reserved one, raises UnknownOpcode and reads no operand (R94). -/
theorem step_unknownOpcode {s : State} (hr : s.ready) (hpc : s.pc < 256) (h0 : (s.readByte s.cur s.pc).toNat ≠ 0)
    (hout : (s.readByte s.cur s.pc).toNat < 0x10 ∨ 0x16 ≤ (s.readByte s.cur s.pc).toNat) :
    step s = .next (s.raise .unknownOpcode (s.readByte s.cur s.pc).toNat) := by
  rcases decode_shapes (s.readByte s.cur s.pc)
      ((List.range' (s.pc + 1) (min 2 (255 - s.pc))).map (s.readByte s.cur)) with
    ⟨i, hlen, ho, -⟩ | ⟨hb, -⟩ | ⟨hb, -⟩ | ⟨hb, -⟩ | ⟨-, hd⟩
  · rw [step_of_opcode hr hpc hlen ho.symm, ← ho]
    refine exec_reserved ?_ s
    rw [← ho] at h0 hout
    have := i.opcode_not_illegal
    omega
  · rw [hb] at hout
    exact absurd hout (by decide)
  · rw [hb] at hout
    exact absurd hout (by decide)
  · rw [hb] at hout
    exact absurd hout (by decide)
  · rw [step_of_ready s hr, s.fetchBytes_cons hpc, hd]

/-! ### The step against the pseudocode (R98, R132) -/

theorem State.budgetSpent_iff {s : State} : s.budgetSpent = true ↔ ∃ b ∈ s.params.stepBudget, b ≤ s.steps := by
  unfold State.budgetSpent
  cases s.params.stepBudget <;> simp

/-- The registers by number are those by name. -/
theorem regOfByte_eq_some_toNat {b : Byte} {r : Reg} (h : regOfByte b = some r) (x : Regs) :
    ¬ (b.toNat = 0 ∨ 5 ≤ b.toNat) ∧ (∀ v, setNumber x b.toNat v = x.set r v) ∧
      regNumber x b.toNat = (x.get r).toNat := by
  rw [← regOfByte_eq_none_iff, h, (regOfByte_eq_some_iff b r).mp h]
  cases r <;> exact ⟨nofun, fun _ => rfl, rfl⟩

theorem exec_move_eq (s : State) (reg imm : Byte) :
    exec (.move reg imm) s = .next (if reg.toNat = 0 ∨ 5 ≤ reg.toNat then s.raise .invalidRegister reg.toNat
      else { s with regs := setNumber s.regs reg.toNat imm, pc := s.pc + 3, steps := s.steps + 1 }) := by
  cases h : regOfByte reg with
  | none => rw [if_pos ((regOfByte_eq_none_iff reg).mp h), (exec_next_iff _ _ _).mpr (.moveBad h)]
  | some r =>
    obtain ⟨hok, hset, -⟩ := regOfByte_eq_some_toNat h s.regs
    rw [if_neg hok, hset, (exec_next_iff _ _ _).mpr (.move h)]
    rfl

theorem exec_add_eq (s : State) (dst src : Byte) :
    exec (.add dst src) s = .next (if dst.toNat = 0 ∨ 5 ≤ dst.toNat then s.raise .invalidRegister dst.toNat
      else if src.toNat = 0 ∨ 5 ≤ src.toNat then s.raise .invalidRegister src.toNat
      else
        { s with
          regs := setNumber s.regs dst.toNat
            (BitVec.ofNat 8 ((regNumber s.regs dst.toNat + regNumber s.regs src.toNat) % 256))
          pc := s.pc + 3
          steps := s.steps + 1 }) := by
  cases hd : regOfByte dst with
  | none => rw [if_pos ((regOfByte_eq_none_iff dst).mp hd), (exec_next_iff _ _ _).mpr (.addBadDst hd)]
  | some d =>
    obtain ⟨hdok, hset, hdget⟩ := regOfByte_eq_some_toNat hd s.regs
    rw [if_neg hdok]
    cases hr : regOfByte src with
    | none => rw [if_pos ((regOfByte_eq_none_iff src).mp hr), (exec_next_iff _ _ _).mpr (.addBadSrc hd hr)]
    | some r =>
      obtain ⟨hrok, -, hrget⟩ := regOfByte_eq_some_toNat hr s.regs
      rw [if_neg hrok, hset, hdget, hrget, (exec_next_iff _ _ _).mpr (.add hd hr)]
      rfl

theorem exec_start_eq (s : State) (m : Byte) :
    exec (.start m) s = .next (if (s.slot m).occupied = false then s.raise .unknownModule m.toNat
      else if s.params.maxDepth ≤ s.cs.length then s.raise .callStackExhausted m.toNat
      else (s.enterModule m).commit) := by
  split_ifs with ho hd
  · exact (exec_next_iff _ _ _).mpr (.startUnknown ho)
  · exact (exec_next_iff _ _ _).mpr (.startExhausted (Bool.not_eq_false _ ▸ ho) hd)
  · exact (exec_next_iff _ _ _).mpr (.start (Bool.not_eq_false _ ▸ ho) (Nat.lt_of_not_le hd))

theorem leastRet_eq_some_iff (root : Memory) (lo t : Nat) :
    leastRet root lo = some t ↔
      lo ≤ t ∧ t ≤ 255 ∧ root.get t = opRet ∧ ∀ x, lo ≤ x → x < t → root.get x ≠ opRet := by
  rw [leastRet, List.head?_filter, List.find?_range_eq_some]
  simp only [Bool.and_eq_true, Bool.not_eq_true', Bool.and_eq_false_iff, decide_eq_true_eq, decide_eq_false_iff_not,
    List.mem_range, opRet]
  constructor
  · rintro ⟨⟨hlo, ht⟩, hlt, hleast⟩
    exact ⟨hlo, Nat.le_of_lt_succ hlt, ht, fun x hx hxt => (hleast x hxt).resolve_left (not_not_intro hx)⟩
  · rintro ⟨hlo, hle, ht, hleast⟩
    exact ⟨⟨hlo, ht⟩, Nat.lt_succ_of_le hle, fun x hxt => imp_iff_not_or.mp fun hx => hleast x hx hxt⟩

theorem leastRet_eq_findRet (root : Memory) (lo : Nat) : leastRet root lo = findRet root lo :=
  Option.ext fun t => (leastRet_eq_some_iff root lo t).trans (findRet_eq_some_iff root lo t).symm

/-- Settles O5: down the pseudocode's checks, each byte's branch by the step's and the instruction's equation. -/
theorem stepMeetsPseudocode : Obligations.StepMeetsPseudocode := by
  unfold Obligations.StepMeetsPseudocode
  intro s hr hcs
  simp only [pseudocodeStep]
  by_cases hb : ∃ b ∈ s.params.stepBudget, b ≤ s.steps
  · rw [if_pos hb]
    exact step_of_budgetSpent hr (State.budgetSpent_iff.mpr hb)
  have hready : s.ready := ⟨hr, Bool.eq_false_iff.mpr (mt State.budgetSpent_iff.mp hb)⟩
  rw [if_neg hb]
  by_cases hpc : 256 ≤ s.pc
  · rw [if_pos hpc]
    exact step_of_pc_ge hready hpc
  rw [if_neg hpc]
  rw [Nat.not_le] at hpc
  by_cases hnop : s.readByte s.cur s.pc = 0x00#8
  · rw [if_pos hnop]
    exact step_of_opcode (i := .nop) hready hpc rfl hnop
  rw [if_neg hnop]
  by_cases hmove : s.readByte s.cur s.pc = 0x10#8
  · rw [if_pos hmove, step_operand2 hready hpc hmove decode_opMove, exec_move_eq]
    split_ifs <;> rfl
  rw [if_neg hmove]
  by_cases hadd : s.readByte s.cur s.pc = 0x11#8
  · rw [if_pos hadd, step_operand2 hready hpc hadd decode_opAdd, exec_add_eq]
    split_ifs <;> rfl
  rw [if_neg hadd]
  by_cases hstart : s.readByte s.cur s.pc = 0x12#8
  · rw [if_pos hstart, step_operand1 hready hpc hstart decode_opStart, exec_start_eq]
    split_ifs <;> rfl
  rw [if_neg hstart]
  by_cases hret : s.readByte s.cur s.pc = 0x13#8
  · rw [if_pos hret, step_of_opcode (i := .ret) hready hpc rfl hret, exec_next_iff]
    split
    · rename_i m f rest hcur hf
      exact .ret hcur hf
    · rename_i hx
      refine .retDone ?_
      by_contra hcur
      obtain ⟨f, rest, hf⟩ := List.exists_cons_of_ne_nil (hcs hcur)
      cases hc : s.cur with
      | root => exact hcur hc
      | mod m => exact hx m f rest hc hf
  rw [if_neg hret]
  by_cases hhalt : s.readByte s.cur s.pc = 0x14#8
  · rw [if_pos hhalt]
    exact step_of_opcode (i := .halt) hready hpc rfl hhalt
  rw [if_neg hhalt]
  by_cases hmod : s.readByte s.cur s.pc = 0x15#8
  · rw [if_pos hmod, step_of_opcode (i := .moduleMark) hready hpc rfl hmod, exec_next_iff, leastRet_eq_findRet]
    split
    next hcur =>
      split
      next t ht => exact .skip hcur ht
      next ht => exact .skipBad hcur ht
    next m hcur => exact .nested hcur
  rw [if_neg hmod]
  refine step_unknownOpcode hready hpc ?_ ?_ <;> bv_omega

/-! ### Every run ends (R103) -/

/-- The return pcs of the frames as one number in base 258, the bottom frame's the leading digit. -/
def stackNumber : List Frame → Nat
  | [] => 0
  | f :: rest => 258 * stackNumber rest + f.retPc

/-- Where the run stands in the order of R103: one more than the number whose digits in base 258 are the return pcs,
bottom to top, then the pc, then 257 up to MAX_DEPTH + 1 digits. -/
def State.progress (s : State) : Nat :=
  (258 * stackNumber s.cs + s.pc + 1) * 258 ^ (s.params.maxDepth - s.depth)

theorem State.progress_pos (s : State) : 0 < s.progress :=
  Nat.mul_pos (Nat.succ_pos _) (Nat.pow_pos (by decide))

theorem stackNumber_lt {c : Ctx} {fs : List Frame} (h : stackFits c fs = true) : stackNumber fs < 258 ^ fs.length := by
  induction fs generalizing c with
  | nil => exact Nat.one_pos
  | cons f rest ih =>
    obtain ⟨-, hret, hrest⟩ := stackFits_cons_iff.mp h
    have := ih hrest
    rw [stackNumber, List.length_cons, Nat.pow_succ]
    omega

theorem State.Inv.progress_le {s : State} (h : s.Inv) : s.progress ≤ 258 ^ (s.params.maxDepth + 1) := by
  have hstack := stackNumber_lt h.stack
  have hpc := h.pc_le
  have hdigits : 258 * stackNumber s.cs + s.pc + 1 ≤ 258 ^ (s.depth + 1) := by
    rw [State.depth, Nat.pow_succ]
    omega
  calc s.progress ≤ 258 ^ (s.depth + 1) * 258 ^ (s.params.maxDepth - s.depth) := Nat.mul_le_mul_right _ hdigits
    _ = 258 ^ (s.params.maxDepth + 1) := by
      rw [← Nat.pow_add]
      have := h.depth_le
      congr 1
      omega

theorem State.progress_lt_of_pc_lt {s t : State} (hcs : t.cs = s.cs) (hparams : t.params = s.params)
    (hpc : s.pc < t.pc) : s.progress < t.progress := by
  rw [State.progress, State.progress, State.depth, State.depth, hcs, hparams]
  exact Nat.mul_lt_mul_of_pos_right (by omega) (Nat.pow_pos (by decide))

/-- START leaves a return pc beyond its own pc, and starts the next digit. -/
theorem State.progress_lt_enterModule {s : State} (m : Byte) (hlt : s.depth < s.params.maxDepth) :
    s.progress < (s.enterModule m).commit.progress := by
  have hdigit : s.params.maxDepth - s.depth = s.params.maxDepth - (s.depth + 1) + 1 := by omega
  calc s.progress
      = (258 * (258 * stackNumber s.cs + s.pc + 1)) * 258 ^ (s.params.maxDepth - (s.depth + 1)) := by
        rw [State.progress, hdigit, Nat.pow_succ]
        ring
    _ < (258 * (258 * stackNumber s.cs + (s.pc + 2)) + (s.slot m).bodyStart + 1) *
          258 ^ (s.params.maxDepth - (s.depth + 1)) :=
        Nat.mul_lt_mul_of_pos_right (by omega) (Nat.pow_pos (by decide))

/-- RET drops the last digit, and the padding that takes its place is greater than any pc. -/
theorem State.Inv.progress_lt_returnTo {s : State} {f : Frame} {rest : List Frame} (h : s.Inv)
    (hcs : s.cs = f :: rest) : s.progress < (s.returnTo f rest).commit.progress := by
  have hdepth : s.depth = rest.length + 1 := congrArg List.length hcs
  have hle := h.depth_le
  have hpc := h.pc_le
  have hdigit : s.params.maxDepth - rest.length = s.params.maxDepth - s.depth + 1 := by omega
  calc s.progress
      < (258 * (258 * stackNumber rest + f.retPc + 1)) * 258 ^ (s.params.maxDepth - s.depth) := by
        rw [State.progress, hcs, stackNumber]
        exact Nat.mul_lt_mul_of_pos_right (by omega) (Nat.pow_pos (by decide))
    _ = (258 * stackNumber rest + f.retPc + 1) * 258 ^ (s.params.maxDepth - rest.length) := by
        rw [hdigit, Nat.pow_succ]
        ring

/-- An instruction that leaves the engine RUNNING moves the pc on, calls or returns. -/
theorem Effect.progress_lt {s t : State} {i : Instr} (h : Effect s i t) (hinv : s.Inv) (ht : t.status = .running) :
    s.progress < t.progress := by
  cases h with
  | nop | move _ | add _ _ => exact State.progress_lt_of_pc_lt rfl rfl (Nat.lt_add_of_pos_right (by decide))
  | skip _ hfind =>
    obtain ⟨hle, -⟩ := (findRet_eq_some_iff _ _ _).mp hfind
    exact State.progress_lt_of_pc_lt rfl rfl (Nat.lt_succ_of_le (Nat.le_of_add_right_le hle))
  | start _ hlt => exact State.progress_lt_enterModule _ hlt
  | ret _ hcs => exact hinv.progress_lt_returnTo hcs
  | retDone _ | halt | moveBad _ | addBadDst _ | addBadSrc _ _ | startUnknown _ | startExhausted _ _ | skipBad _ _
  | nested _ | run | cid | ld | ldc | out => cases ht

/-- A step that leaves the engine RUNNING strictly increases the list of R103. -/
theorem step_progress_lt {s t : State} (hinv : s.Inv) (h : step s = .next t) (ht : t.status = .running) :
    s.progress < t.progress := by
  obtain ⟨-, ⟨-, rfl⟩ | ⟨-, ⟨-, -, rfl⟩ | ⟨b0, -, rfl⟩ | ⟨i, rest, -, he⟩⟩⟩ := step_cases s t h
  · cases ht
  · cases ht
  · cases ht
  · exact he.progress_lt hinv ht

theorem step_running_or_terminal {s t : State} (h : step s = .next t) :
    t.status = .running ∨ t.status.isTerminal = true := by
  obtain ⟨hr, hk⟩ := step_kind h
  cases hk with
  | cancelled | raised _ => exact .inr rfl
  | stayed _ hst => exact hst.imp_right fun hst => by rcases hst with rfl | rfl <;> rfl
  | called _ _ => exact .inl hr
  | returned _ _ => exact .inl hr

/-- The steps that are left are those that the list of R103 can still take. -/
theorem State.Inv.exists_terminal {n : Nat} {s : State} (h : s.Inv) (hr : s.status = .running)
    (hn : 258 ^ (s.params.maxDepth + 1) < s.progress + n) :
    ∃ k t, k ≤ n ∧ s.after k = some t ∧ t.status.isTerminal = true := by
  induction n generalizing s with
  | zero => exact absurd hn (Nat.not_lt_of_le h.progress_le)
  | succ n ih =>
    obtain ⟨t, hst⟩ := step_progress hr h.stack_ne_nil
    rcases step_running_or_terminal hst with ht | ht
    · have hlt := step_progress_lt h hst ht
      have hparams := step_params hst
      obtain ⟨k, u, hk, hu, hterm⟩ := ih (step_inv h hst) ht (by rw [hparams]; omega)
      exact ⟨k + 1, u, Nat.succ_le_succ hk, State.after_succ_iff.mpr ⟨t, hst, hu⟩, hterm⟩
    · exact ⟨1, t, Nat.succ_le_succ (Nat.zero_le n), State.after_succ_iff.mpr ⟨t, hst, rfl⟩, ht⟩

/-- The host's Run stops at the terminal status the steps lead to. -/
theorem State.runFor_of_after {k n : Nat} {s t : State} (h : s.after k = some t) (ht : t.status.isTerminal = true)
    (hk : k ≤ n) : s.runFor n = .next t := by
  induction k generalizing s n with
  | zero =>
    cases h
    exact State.runFor_of_not_running (fun hr => by rw [hr] at ht; cases ht) n
  | succ k ih =>
    obtain ⟨u, hst, hu⟩ := State.after_succ_iff.mp h
    obtain ⟨n, rfl⟩ := Nat.exists_eq_add_of_le' hk
    simp only [State.runFor, (step_kind hst).1, hst, if_true]
    exact ih hu (Nat.le_add_left k n)

/-- Settles O44: the list of R103 starts above 0, has 258^(MAX_DEPTH + 1) values, and increases while RUNNING. -/
theorem everyRunEnds : Obligations.EveryRunEnds := by
  unfold Obligations.EveryRunEnds
  intro s h hr
  obtain ⟨n, t, hn, hafter, hterm⟩ := h.exists_terminal hr (Nat.lt_add_of_pos_left s.progress_pos)
  exact ⟨⟨n, t, hn, hafter, hterm⟩, t, (if_pos hr).trans (State.runFor_of_after hafter hterm hn), hterm⟩

/-! ### When the engine steps, and the budget (R90, R92) -/

/-- Settles O6: the status is what a step looks at first; the invariant's stack holds the frame a RET needs. -/
theorem engineStepsOnlyWhenRunning : Obligations.EngineStepsOnlyWhenRunning := by
  unfold Obligations.EngineStepsOnlyWhenRunning
  exact ⟨fun s hr => by simp [step, nextAction, hr], fun s h hr => step_progress hr h.stack_ne_nil⟩

theorem Effect.status_ne_cancelled {s t : State} {i : Instr} (h : Effect s i t) (hr : s.status = .running) :
    t.status ≠ .cancelled := by
  cases h <;> simp [hr]

theorem budgetSpent_of_step_cancelled {s t : State} (h : step s = .next t) (ht : t.status = .cancelled) :
    s.budgetSpent = true := by
  obtain ⟨hr, ⟨hb, -⟩ | ⟨-, ⟨-, -, rfl⟩ | ⟨b0, -, rfl⟩ | ⟨i, rest, -, he⟩⟩⟩ := step_cases s t h
  · exact hb
  · cases ht
  · cases ht
  · exact absurd ht (he.status_ne_cancelled hr)

/-- Settles O7: a spent budget is the only way to a cancellation. -/
theorem budgetCancelsRun : Obligations.BudgetCancelsRun := by
  unfold Obligations.BudgetCancelsRun
  refine ⟨fun s b hr hb hle => step_of_budgetSpent hr (State.budgetSpent_iff.mpr ⟨b, hb, hle⟩),
    fun s t hb h ht => ?_, fun s t b hb hlt h ht => ?_⟩
  · obtain ⟨b, hmem, -⟩ := State.budgetSpent_iff.mp (budgetSpent_of_step_cancelled h ht)
    rw [hb] at hmem
    cases hmem
  · obtain ⟨c, hmem, hle⟩ := State.budgetSpent_iff.mp (budgetSpent_of_step_cancelled h ht)
    rw [hb] at hmem
    cases hmem
    exact absurd hle (Nat.not_le_of_lt hlt)

/-! ### The fetch (R93, R94, R95) -/

theorem step_operand2_outOfBounds {s : State} {b0 : Byte} {f : Byte → Byte → Instr} (hr : s.ready) (hpc : s.pc < 256)
    (h0 : s.readByte s.cur s.pc = b0) (hd : ∀ bs, decode (b0 :: bs) = operand2 f bs) (h254 : 254 ≤ s.pc) :
    step s = .next (s.raise .outOfBounds 256) := by
  rw [step_operand2 hr hpc h0 hd]
  by_cases h255 : s.pc = 255
  · rw [if_pos (by omega), show s.pc + 1 = 256 by omega]
  · rw [if_neg (by omega), if_pos (by omega), show s.pc + 2 = 256 by omega]

theorem step_operand2_of_pc_lt {s : State} {b0 : Byte} {f : Byte → Byte → Instr} (hr : s.ready)
    (h0 : s.readByte s.cur s.pc = b0) (hd : ∀ bs, decode (b0 :: bs) = operand2 f bs) (h254 : s.pc < 254) :
    step s = exec (f (s.readByte s.cur (s.pc + 1)) (s.readByte s.cur (s.pc + 2))) s := by
  rw [step_operand2 hr (by omega) h0 hd, if_neg (by omega), if_neg (by omega)]

/-- Settles O9: each opcode byte by its format, one-byte instructions by the opcode alone. -/
theorem operandFetchOutOfBounds : Obligations.OperandFetchOutOfBounds := by
  unfold Obligations.OperandFetchOutOfBounds
  intro s b0 hr hpc h0
  refine ⟨fun hb h254 => ?_, fun hb h255 => ?_, fun hb hlt => ?_, fun hb hlt => ?_, fun hb hlt => ?_, fun hb => ?_,
    fun hb => ?_, fun hb => ?_, fun hb => ?_⟩
  · rcases hb with rfl | rfl
    · exact step_operand2_outOfBounds hr hpc h0 decode_opMove h254
    · exact step_operand2_outOfBounds hr hpc h0 decode_opAdd h254
  · rw [step_operand1 hr hpc (h0.trans hb) decode_opStart, if_pos (by omega), show s.pc + 1 = 256 by omega]
    rfl
  · exact step_operand2_of_pc_lt hr (h0.trans hb) decode_opMove hlt
  · exact step_operand2_of_pc_lt hr (h0.trans hb) decode_opAdd hlt
  · rw [step_operand1 hr hpc (h0.trans hb) decode_opStart, if_neg (by omega)]
  · exact step_of_opcode hr hpc rfl (h0.trans hb)
  · exact step_of_opcode hr hpc rfl (h0.trans hb)
  · exact step_of_opcode hr hpc rfl (h0.trans hb)
  · exact step_of_opcode hr hpc rfl (h0.trans hb)

/-- Settles O8: at 256 and above no byte is fetched. -/
theorem opcodeFetchOutOfBounds : Obligations.OpcodeFetchOutOfBounds := by
  unfold Obligations.OpcodeFetchOutOfBounds
  exact fun s hr => ⟨step_of_pc_ge hr, s.fetchBytes_head⟩

/-- Settles O10: the illegal bytes at the decode, the reserved ones in their own meanings. -/
theorem unknownOpcodeAtDecode : Obligations.UnknownOpcodeAtDecode := by
  unfold Obligations.UnknownOpcodeAtDecode
  exact fun s hr hpc h0 hout => step_unknownOpcode hr hpc h0 (by omega)

/-- The fetched bytes begin with those of an instruction that stands at the pc. -/
theorem State.encode_prefix_fetchBytes {s : State} {i : Instr} (hfit : s.pc + i.length ≤ 256)
    (hread : ∀ (n : Nat) (h : n < (encode i).length), s.readByte s.cur (s.pc + n) = (encode i)[n]) :
    encode i <+: s.fetchBytes := by
  have hlen : i.length ≤ 3 := by cases i <;> simp [Instr.length]
  refine List.prefix_iff_getElem.mpr ⟨by simp; omega, fun n hn => ?_⟩
  rw [← hread n hn]
  simp [State.fetchBytes_eq]

/-- Settles O4: the decoder answers with the instruction whose bytes come first. -/
theorem stepRunsDecodedInstruction : Obligations.StepRunsDecodedInstruction := by
  unfold Obligations.StepRunsDecodedInstruction
  refine ⟨fun _ _ _ => step_of_decode, fun s i hr hfit hread => ?_⟩
  obtain ⟨rest, hrest⟩ := State.encode_prefix_fetchBytes hfit hread
  exact step_of_decode hr (hrest ▸ decode_encode_append i rest)

/-! ### Walking off the end (R102) -/

theorem State.ready_of_no_budget {s : State} (hr : s.status = .running) (hb : s.params.stepBudget = none) : s.ready :=
  ⟨hr, by simp [State.budgetSpent, hb]⟩

/-- Over `k` cells that are NOP up to the end, `k` steps and the fault. -/
theorem State.after_nops {k : Nat} {s : State} (hr : s.status = .running) (hb : s.params.stepBudget = none)
    (hk : s.pc + k = 256) (hnop : ∀ a, s.pc ≤ a → a ≤ 255 → s.readByte s.cur a = opNop) :
    s.after (k + 1) = some ({ s with pc := 256, steps := s.steps + k }.raise .outOfBounds 256) := by
  induction k generalizing s with
  | zero =>
    have hpc : s.pc = 256 := hk
    refine State.after_succ_iff.mpr ⟨_, step_of_pc_ge (State.ready_of_no_budget hr hb) hpc.ge, ?_⟩
    rw [State.after, ← hpc]
    rfl
  | succ k ih =>
    have hstep : step s = .next (s.advance 1).commit :=
      step_of_opcode (State.ready_of_no_budget hr hb) (by omega) (i := .nop) rfl (hnop s.pc le_rfl (by omega))
    have hrest := ih (s := (s.advance 1).commit) hr hb (by rw [← hk, Nat.add_comm k 1, ← Nat.add_assoc]; rfl)
      fun a ha => hnop a (Nat.le_of_succ_le ha)
    refine State.after_succ_iff.mpr ⟨_, hstep, hrest.trans ?_⟩
    rw [Nat.add_comm k 1, ← Nat.add_assoc]
    rfl

/-- Settles O46: NOP by NOP to 256, where the opcode fetch faults. -/
theorem walkingOffTheEnd : Obligations.WalkingOffTheEnd := by
  unfold Obligations.WalkingOffTheEnd
  intro s hr hb hpc hnop
  have h := State.after_nops (k := 256 - s.pc) hr hb (by omega) hnop
  rw [show 257 - s.pc = 256 - s.pc + 1 by omega, h]
  rfl

end Sys2Proof.Machine

/-! PROOF. The family spec/41_data.md: the register an identifier byte names, the sum of two bytes, and what NOP, MOVE and
ADD do and leave unchanged. -/

namespace Sys2Proof.Machine

open Sys2Proof

/-! ### Registers by identifier byte (R22, R24, R109) -/

theorem exists_regOfByte {b : Byte} (h : 1 ≤ b.toNat ∧ b.toNat ≤ 4) : ∃ r, regOfByte b = some r :=
  Option.ne_none_iff_exists'.mp (mt (regOfByte_eq_none_iff b).mp (by omega))

theorem Regs.getByte_eq_some_iff {x : Regs} {b v : Byte} :
    x.getByte b = some v ↔ ∃ r, regOfByte b = some r ∧ x.get r = v := Option.map_eq_some_iff

theorem Regs.getByte_eq_none_iff (x : Regs) (b : Byte) : x.getByte b = none ↔ b.toNat = 0 ∨ 5 ≤ b.toNat :=
  Option.map_eq_none_iff.trans (regOfByte_eq_none_iff b)

/-- `Regs.getByte_set` with the written register named by its byte. -/
theorem Regs.getByte_set_of_regOfByte {b : Byte} {r : Reg} (h : regOfByte b = some r) (x : Regs) (v q : Byte) :
    (x.set r v).getByte q = if q = b then some v else x.getByte q := by
  rw [Regs.getByte_set, (regOfByte_eq_some_iff b r).mp h]

theorem Regs.getByte_set_of_ne {b q : Byte} {r : Reg} (h : regOfByte b = some r) (hne : some b ≠ some q) (x : Regs)
    (v : Byte) : (x.set r v).getByte q = x.getByte q :=
  (Regs.getByte_set_of_regOfByte h x v q).trans (if_neg fun hq => hne (congrArg some hq.symm))

/-! ### The sum (R108) -/

/-- Reducing to a byte is itself the reduction modulo 256. -/
theorem addByte_eq_ofNat (a b : Byte) : addByte a b = BitVec.ofNat 8 (a.toNat + b.toNat) :=
  BitVec.eq_of_toNat_eq (Nat.mod_mod _ _)

theorem addByte_eq_add (a b : Byte) : addByte a b = a + b :=
  (addByte_eq_ofNat a b).trans (BitVec.add_def a b).symm

/-! ### Completed instructions and faults leave the rest as it was -/

theorem State.sameOutside_raise (s : State) (k : FaultKind) (info : Nat) : s.SameOutside (s.raise k info) :=
  ⟨rfl, rfl, rfl, rfl, rfl, fun _ _ => rfl⟩

theorem State.sameOutside_advance (s : State) (n : Nat) : s.SameOutside (s.advance n).commit :=
  ⟨rfl, rfl, rfl, rfl, rfl, fun _ _ => rfl⟩

theorem State.sameOutside_writeReg_advance (s : State) (r : Reg) (v : Byte) (n : Nat) :
    s.SameOutside ((s.writeReg r v).advance n).commit :=
  ⟨rfl, rfl, rfl, rfl, rfl, fun _ _ => rfl⟩

/-! ### The statements -/

/-- Settles O12: the register byte decides the effect, and the format's fetch what is executed. -/
theorem moveLoadsLiteral : Obligations.MoveLoadsLiteral := by
  unfold Obligations.MoveLoadsLiteral
  intro s reg imm
  refine ⟨fun hreg => ?_, fun hbad => ?_, ?_, fun hr hpc h0 => ?_⟩
  · obtain ⟨r, hr⟩ := exists_regOfByte hreg
    exact ⟨s.regs.set r imm, (exec_next_iff _ _ _).mpr (.move hr), Regs.getByte_set_of_regOfByte hr s.regs imm⟩
  · exact (exec_next_iff _ _ _).mpr (.moveBad ((regOfByte_eq_none_iff reg).mpr hbad))
  · rintro hr hpc h0 rfl rfl
    exact step_operand2_of_pc_lt hr h0 decode_opMove (Nat.lt_succ_of_le hpc)
  · exact step_operand2_outOfBounds hr (by omega) h0 decode_opMove (by omega)

/-- Settles O13: `dst` decides first, then `src`; the sum is of the registers before the write. -/
theorem addWraps : Obligations.AddWraps := by
  unfold Obligations.AddWraps
  intro s dst src
  refine ⟨fun a b ha hb => ?_, s.regs.getByte_eq_none_iff, fun hbad => ?_, fun hdst hbad => ?_, ?_,
    fun hr hpc h0 => ?_⟩
  · obtain ⟨d, hd, rfl⟩ := Regs.getByte_eq_some_iff.mp ha
    obtain ⟨r, hr, rfl⟩ := Regs.getByte_eq_some_iff.mp hb
    rw [← addByte_eq_ofNat]
    exact ⟨_, (exec_next_iff _ _ _).mpr (.add hd hr), Regs.getByte_set_of_regOfByte hd s.regs _⟩
  · exact (exec_next_iff _ _ _).mpr (.addBadDst ((regOfByte_eq_none_iff dst).mpr hbad))
  · obtain ⟨d, hd⟩ := exists_regOfByte hdst
    exact (exec_next_iff _ _ _).mpr (.addBadSrc hd ((regOfByte_eq_none_iff src).mpr hbad))
  · rintro hr hpc h0 rfl rfl
    exact step_operand2_of_pc_lt hr h0 decode_opAdd (Nat.lt_succ_of_le hpc)
  · exact step_operand2_outOfBounds hr (by omega) h0 decode_opAdd (by omega)

/-- Settles O22: each effect of the three instructions is a register write that completes, or InvalidRegister. -/
theorem dataInstructionsFrame : Obligations.DataInstructionsFrame := by
  unfold Obligations.DataInstructionsFrame
  intro s t i dest hi h
  have he : Effect s i t := (exec_next_iff s t i).mp h
  rcases hi with ⟨rfl, rfl⟩ | ⟨reg, imm, rfl, rfl⟩ | ⟨dst, src, rfl, rfl⟩
  · cases he with
    | nop => exact ⟨s.sameOutside_advance 1, fun _ _ => rfl, .inl ⟨rfl, rfl⟩⟩
  · cases he with
    | move hr =>
      exact ⟨s.sameOutside_writeReg_advance _ _ 3, fun _ hne => Regs.getByte_set_of_ne hr hne _ _, .inl ⟨rfl, rfl⟩⟩
    | moveBad _ => exact ⟨s.sameOutside_raise _ _, fun _ _ => rfl, .inr ⟨rfl, rfl, rfl, rfl, rfl⟩⟩
  · cases he with
    | add hd _ =>
      exact ⟨s.sameOutside_writeReg_advance _ _ 3, fun _ hne => Regs.getByte_set_of_ne hd hne _ _, .inl ⟨rfl, rfl⟩⟩
    | addBadDst _ | addBadSrc _ _ => exact ⟨s.sameOutside_raise _ _, fun _ _ => rfl, .inr ⟨rfl, rfl, rfl, rfl, rfl⟩⟩

/-- Settles O11: the opcode byte alone is fetched, and at 256 there is none. -/
theorem nopAdvances : Obligations.NopAdvances := by
  unfold Obligations.NopAdvances
  intro s
  have hexec : exec .nop s = .next (s.advance 1).commit := (exec_next_iff _ _ _).mpr .nop
  refine ⟨hexec, fun hr hpc h0 => ?_, fun hr hpc => ?_⟩
  · exact (step_of_opcode hr (Nat.lt_succ_of_le hpc) (i := .nop) rfl h0).trans hexec
  · rw [step_of_pc_ge hr hpc.ge, ← hpc]
    rfl

/-- Settles O14: the byte is the sum of bit vectors, whose two readings are the library's. -/
theorem additionIsModulo256 : Obligations.AdditionIsModulo256 := by
  unfold Obligations.AdditionIsModulo256
  intro a b
  rw [addByte_eq_add]
  exact ⟨BitVec.toNat_add a b, BitVec.toInt_add a b⟩

end Sys2Proof.Machine

/-! PROOF. The family spec/42_control.md: the call and its return in a run, what START, RET, HALT and MODULE do, and
what they leave unchanged; tier 3 first. -/

namespace Sys2Proof.Machine

open Sys2Proof

/-! ### The call and its return (R119) -/

/-- A run cut before its last step. -/
theorem State.exists_last_step {s u : State} {n : Nat} (h : s.after (n + 1) = some u) :
    ∃ v, s.after n = some v ∧ step v = .next u := by
  induction n generalizing s with
  | zero =>
    obtain ⟨t, hst, htu⟩ := State.after_succ_iff.mp h
    cases htu
    exact ⟨s, rfl, hst⟩
  | succ n ih =>
    obtain ⟨t, hst, htu⟩ := State.after_succ_iff.mp h
    obtain ⟨v, hv, hvu⟩ := ih htu
    exact ⟨v, State.after_succ_iff.mpr ⟨t, hst, hv⟩, hvu⟩

/-- The step that makes the stack less deep is a RET, and it returns to the top frame. -/
theorem step_depth_lt {s t : State} (h : step s = .next t) (hdepth : t.depth < s.depth) :
    ∃ f rest, s.cs = f :: rest ∧ t = (s.returnTo f rest).commit := by
  rcases (step_kind h).2.sameOutside_or with ho | ⟨m, rest, -, rfl⟩ | hret
  · exact absurd ho.depth_eq hdepth.ne
  · exact absurd hdepth (Nat.not_lt_of_le (Nat.le_succ _))
  · exact hret

/-- Settles O45: the frames above START's are popped before it, so the RET that uncovers the caller's stack returns to
the frame START pushed. -/
theorem callReturnLaw : Obligations.CallReturnLaw := by
  unfold Obligations.CallReturnLaw
  intro s t u n hst hdepth hn hback habove
  obtain ⟨m, -, -, rfl⟩ := step_depth_succ hst hdepth
  cases n with
  | zero =>
    cases hn
    omega
  | succ n =>
    obtain ⟨v, hv, hvu⟩ := State.exists_last_step hn
    have hstack : StackAbove (.mod m) (⟨s.pc + 2, s.cur, s.regs⟩ :: s.cs) v.cur v.cs :=
      after_stackAbove .here hv fun k w hk hw => habove k w (Nat.lt_succ_of_le hk) hw
    obtain ⟨f, rest, hcs, rfl⟩ := step_depth_lt hvu (hback ▸ habove n v n.lt_succ_self hv)
    have hlen : v.cs.length = (⟨s.pc + 2, s.cur, s.regs⟩ :: s.cs).length := by
      rw [hcs]
      exact congrArg (· + 1) hback
    have htop : f :: rest = ⟨s.pc + 2, s.cur, s.regs⟩ :: s.cs := hcs.symm.trans (hstack.eq_of_length hlen).2
    cases htop
    exact ⟨rfl, rfl, rfl, rfl⟩

/-! ### START (R110) -/

theorem State.enterModule_slot_self (s : State) (m : Byte) :
    (s.enterModule m).slot m = (s.slot m).entered s.cur s.regs :=
  (s.enterModule_slot m m).trans (if_pos rfl)

theorem State.enterModule_slot_of_ne (s : State) {m k : Byte} (h : k ≠ m) : (s.enterModule m).slot k = s.slot k :=
  (s.enterModule_slot m k).trans (if_neg h)

/-- Settles O15: the next state of a call is `enterModule`, committed; the two faults are told apart by `occupied`. -/
theorem startCallsModule : Obligations.StartCallsModule := by
  unfold Obligations.StartCallsModule
  intro s m
  refine ⟨fun ho hlt => ⟨(s.enterModule m).commit, (exec_next_iff _ _ _).mpr (.start ho hlt), ?_⟩,
    fun ho => (exec_next_iff _ _ _).mpr (.startUnknown ho),
    fun ho hge => (exec_next_iff _ _ _).mpr (.startExhausted ho hge), ?_, fun hr hpc h0 => ?_⟩
  · have hslot : (s.enterModule m).commit.slot m = (s.slot m).entered s.cur s.regs := s.enterModule_slot_self m
    have hcaller : ((s.enterModule m).commit.slot m).caller = callerOf s.cur := congrArg (·.caller) hslot
    rw [hcaller, hslot]
    exact ⟨rfl, rfl, congrArg callerOf, fun _ => congrArg callerOf, rfl, rfl, rfl, ho, rfl, rfl,
      fun _ => s.enterModule_slot_of_ne, rfl, rfl, rfl, rfl, rfl, rfl, rfl, rfl⟩
  · rintro hr hpc h0 rfl
    rw [step_operand1 hr (Nat.lt_succ_of_le (Nat.le_succ_of_le hpc)) h0 decode_opStart, if_neg (by omega)]
  · rw [step_operand1 hr (by omega) h0 decode_opStart, if_pos (by omega), show s.pc + 1 = 256 by omega]
    rfl

/-! ### RET (R112) -/

/-- Settles O16: the context decides the effect, and in a module context the invariant's stack has the frame. -/
theorem retReturnsOrEnds : Obligations.RetReturnsOrEnds := by
  unfold Obligations.RetReturnsOrEnds
  intro s
  exact ⟨fun hroot => (exec_next_iff _ _ _).mpr (.retDone hroot),
    fun m f rest hmod hcs => (exec_next_iff _ _ _).mpr (.ret hmod hcs),
    fun m hinv hmod => hinv.stack_ne_nil (by simp [hmod]),
    fun hr hpc h0 => step_of_opcode hr (Nat.lt_succ_of_le hpc) rfl h0⟩

/-! ### MODULE in the root context (R115) -/

/-- At a loaded declaration ROOT still holds what was copied, so the search ends where the Loader's did. -/
theorem State.SlotLoaded.findRet_eq {s : State} {m : Byte} {t : Nat} (h : s.SlotLoaded m t) :
    findRet s.root (s.slot m).bodyStart = some t := by
  refine (findRet_eq_some_iff _ _ _).mpr ⟨h.start_le, h.term_le, ?_, fun a hstart hlt => ?_⟩
  · rw [← h.copied t h.start_le le_rfl]
    exact h.term_ret
  · rw [← h.copied a hstart hlt.le]
    exact h.no_ret_before a hstart hlt

/-- Settles O19: the three cases are the three results of the terminator search. -/
theorem declarationSkipped : Obligations.DeclarationSkipped := by
  unfold Obligations.DeclarationSkipped
  intro s hroot
  refine ⟨fun t hle ht hret hbefore => ?_, fun hnone => ?_, fun m t hloaded hpc => ?_, fun hr hpc h0 => ?_⟩
  · exact (exec_next_iff _ _ _).mpr (.skip hroot ((findRet_eq_some_iff _ _ _).mpr ⟨hle, ht, hret, hbefore⟩))
  · rw [← hroot]
    exact (exec_next_iff _ _ _).mpr (.skipBad hroot ((findRet_eq_none_iff _ _).mpr hnone))
  · exact (exec_next_iff _ _ _).mpr (.skip hroot (hpc ▸ hloaded.findRet_eq))
  · refine step_of_opcode hr (Nat.lt_succ_of_le hpc) rfl ?_
    rw [hroot]
    exact h0

/-! ### What the control instructions leave unchanged -/

/-- The four kinds of next state of START, RET, HALT, MODULE and the reserved opcodes. -/
inductive ControlEffect (s : State) : Instr → State → Prop where
  /-- A fault, which RET and HALT do not raise. -/
  | raised {i : Instr} {k : FaultKind} {info : Nat} (hret : i ≠ .ret) (hhalt : i ≠ .halt) :
      ControlEffect s i (s.raise k info)
  /-- A START that calls (R110). -/
  | called {m : Byte} : ControlEffect s (.start m) (s.enterModule m).commit
  /-- A RET to the top frame (R112). -/
  | returned {f : Frame} {rest : List Frame} : ControlEffect s .ret (s.returnTo f rest).commit
  /-- The end of the run by RET or HALT, and the declaration skip (R112, R114, R115). -/
  | moved {i : Instr} {p : Nat} {st : Status} (hstart : ∀ m, i ≠ .start m) :
      ControlEffect s i { s with pc := p, status := st, steps := s.steps + 1 }

/-- Every effect but those of the data instructions is of one of the four kinds. -/
theorem Effect.control {s t : State} {i : Instr} (h : Effect s i t) (hnop : i ≠ .nop)
    (hmove : ∀ reg imm, i ≠ .move reg imm) (hadd : ∀ dst src, i ≠ .add dst src) : ControlEffect s i t := by
  cases h with
  | nop => exact absurd rfl hnop
  | move _ | moveBad _ => exact absurd rfl (hmove _ _)
  | add _ _ | addBadDst _ | addBadSrc _ _ => exact absurd rfl (hadd _ _)
  | startUnknown _ | startExhausted _ _ | skipBad _ _ | nested _ | run | cid | ld | ldc | out =>
    exact .raised nofun nofun
  | start _ _ => exact .called
  | ret _ _ => exact .returned
  | retDone _ | halt | skip _ _ => exact .moved nofun

theorem ControlEffect.sameLoaded {s t : State} {i : Instr} (h : ControlEffect s i t) : s.SameLoaded t := by
  cases h with
  | called => exact (s.sameLoaded_enterModule _).trans (.of_slot_eq rfl fun _ => rfl)
  | raised _ _ | returned | moved _ => exact .of_slot_eq rfl fun _ => rfl

theorem ControlEffect.params_eq {s t : State} {i : Instr} (h : ControlEffect s i t) : t.params = s.params := by
  cases h <;> rfl

theorem ControlEffect.mt_eq {s t : State} {i : Instr} (h : ControlEffect s i t) (hstart : ∀ m, i ≠ .start m) :
    t.mt = s.mt := by
  cases h with
  | called => exact absurd rfl (hstart _)
  | raised _ _ | returned | moved _ => rfl

theorem ControlEffect.slot_eq {s t : State} {i : Instr} {k : Byte} (h : ControlEffect s i t) (hk : i ≠ .start k) :
    t.slot k = s.slot k := by
  cases h with
  | called => exact s.enterModule_slot_of_ne fun hm => hk (congrArg Instr.start hm.symm)
  | raised _ _ | returned | moved _ => rfl

theorem ControlEffect.context_eq {s t : State} {i : Instr} (h : ControlEffect s i t) (hstart : ∀ m, i ≠ .start m)
    (hret : i ≠ .ret) : t.regs = s.regs ∧ t.cur = s.cur ∧ t.cs = s.cs := by
  cases h with
  | called => exact absurd rfl (hstart _)
  | returned => exact absurd rfl hret
  | raised _ _ | moved _ => exact ⟨rfl, rfl, rfl⟩

/-- Only a fault writes the fault record. -/
theorem ControlEffect.fault_eq_or {s t : State} {i : Instr} (h : ControlEffect s i t) :
    t.fault = s.fault ∨ t.status = .faulted ∧ i ≠ .ret ∧ i ≠ .halt := by
  cases h with
  | raised hret hhalt => exact .inr ⟨rfl, hret, hhalt⟩
  | called | returned | moved _ => exact .inl rfl

/-- Settles O23: each part by the four kinds of next state. -/
theorem controlInstructionsFrame : Obligations.ControlInstructionsFrame := by
  unfold Obligations.ControlInstructionsFrame
  intro s t i hi hexec
  have hdata : i ≠ .nop ∧ (∀ reg imm, i ≠ .move reg imm) ∧ ∀ dst src, i ≠ .add dst src := by
    rcases hi with ⟨m, rfl⟩ | rfl | rfl | rfl | rfl | rfl | rfl | rfl | rfl <;> exact ⟨nofun, nofun, nofun⟩
  obtain ⟨hnop, hmove, hadd⟩ := hdata
  have hc : ControlEffect s i t := ((exec_next_iff s t i).mp hexec).control hnop hmove hadd
  have hl := hc.sameLoaded
  refine ⟨hl.sameMemories, hl.root_eq, hc.params_eq,
    fun k => ⟨hl.id_eq k, hl.occupied_eq k, hl.start_eq k, hl.private_eq k⟩, fun _ => hc.slot_eq, hc.mt_eq,
    hc.context_eq, fun hi => ?_, hc.fault_eq_or.imp_right And.left⟩
  rcases hc.fault_eq_or with hf | ⟨-, hret, hhalt⟩
  · exact hf
  · exact absurd hi (not_or.mpr ⟨hret, hhalt⟩)

/-! ### HALT, and MODULE in a module context (R114, R116) -/

/-- Settles O18: HALT looks at no context, and its byte alone is fetched. -/
theorem haltStopsMachine : Obligations.HaltStopsMachine := by
  unfold Obligations.HaltStopsMachine
  intro s
  have hexec : exec .halt s = .next (s.setStatus .halted).commit := (exec_next_iff _ _ _).mpr .halt
  exact ⟨hexec, fun hr hpc h0 => (step_of_opcode hr (Nat.lt_succ_of_le hpc) (i := .halt) rfl h0).trans hexec⟩

/-- Settles O20: in MOD(m) a marker is nested, whatever stands after it. -/
theorem markerInModuleFaults : Obligations.MarkerInModuleFaults := by
  unfold Obligations.MarkerInModuleFaults
  intro s m hcur
  have hexec : exec .moduleMark s = .next (s.raise .malformedModule m.toNat) := (exec_next_iff _ _ _).mpr (.nested hcur)
  rw [← hcur]
  exact ⟨hexec, fun hr hpc h0 => (step_of_opcode hr (Nat.lt_succ_of_le hpc) (i := .moduleMark) rfl h0).trans hexec⟩

end Sys2Proof.Machine

/-! PROOF. The family spec/43_reserved.md: each reserved opcode raises its own byte. -/

namespace Sys2Proof.Machine

open Sys2Proof

/-- Settles O21: each row pairs a reserved instruction with its opcode byte, and no operand is fetched after that. -/
theorem reservedOpcodesFailFast : Obligations.ReservedOpcodesFailFast := by
  unfold Obligations.ReservedOpcodesFailFast
  rintro s ⟨i, b⟩ hp
  have hrow : i.opcode = b ∧ i.length = 1 ∧ 0x16 ≤ i.opcode.toNat :=
    (by decide : ∀ q ∈ [(Instr.run, 0x16#8), (.cid, 0x17#8), (.ld, 0x18#8), (.ldc, 0x19#8), (.out, 0x1A#8)],
      q.1.opcode = q.2 ∧ q.1.length = 1 ∧ 0x16 ≤ q.1.opcode.toNat) (i, b) hp
  obtain ⟨rfl, hlen, hreserved⟩ := hrow
  have hexec : exec i s = .next (s.raise .unknownOpcode i.opcode.toNat) := exec_reserved hreserved s
  exact ⟨hexec, fun hr hpc h0 => (step_of_opcode hr (Nat.lt_succ_of_le hpc) hlen h0).trans hexec⟩

end Sys2Proof.Machine

/-! PROOF. The family spec/60_exceptions.md: what a fault changes, when the engine raises which, and the invariant under
the host's actions. -/

namespace Sys2Proof.Machine

open Sys2Proof

/-! ### Precise faults (R134, R135) -/

/-- The fault entry is the only writer of the fault record. -/
theorem StepKind.raised_or_fault_eq {s t : State} (hk : StepKind s t) (hr : s.status = .running) :
    (∃ k info, t = s.raise k info) ∨ (t.status ≠ .faulted ∧ t.fault = s.fault) := by
  cases hk with
  | cancelled => exact .inr ⟨nofun, rfl⟩
  | raised _ => exact .inl ⟨_, _, rfl⟩
  | stayed _ hst => exact .inr ⟨by rcases hst with rfl | rfl | rfl <;> nofun, rfl⟩
  | called _ _ | returned _ _ => exact .inr ⟨by simp [hr], rfl⟩

/-- Settles O24: a step either is a fault entry, or writes no fault record. -/
theorem faultsArePrecise : Obligations.FaultsArePrecise := by
  unfold Obligations.FaultsArePrecise
  intro s t h
  obtain ⟨hr, hk⟩ := step_kind h
  rcases hk.raised_or_fault_eq hr with ⟨k, info, rfl⟩ | ⟨hne, hfault⟩
  · exact ⟨fun _ => ⟨rfl, rfl, rfl, rfl⟩, fun hne => absurd rfl hne⟩
  · exact ⟨fun hf => absurd hf hne, fun _ => hfault⟩

/-! ### A fault's condition was met (R130) -/

/-- A missing operand byte is the one at 256, of an instruction that reads it. -/
theorem raisesWhen_of_missing {s : State} {n : Nat} (hpc : s.pc ≤ 256) (hd : decode s.fetchBytes = .missing n) :
    raisesWhen s .outOfBounds (s.pc + n) := by
  obtain ⟨hn, hle⟩ := decode_missing _ _ hd
  rw [State.fetchBytes_length] at hn
  refine ⟨by omega, (Nat.lt_or_eq_of_le hpc).symm.imp_right fun hlt => ?_⟩
  obtain ⟨bs, hbs, hlen⟩ : ∃ bs, s.fetchBytes = s.readByte s.cur s.pc :: bs ∧ bs.length = min 2 (255 - s.pc) :=
    ⟨_, s.fetchBytes_cons hlt, by simp⟩
  rw [hbs] at hd
  rcases decode_shapes _ bs with ⟨i, -, -, e⟩ | ⟨h0, -⟩ | ⟨h0, -⟩ | ⟨h0, e⟩ | ⟨-, e⟩
  · cases e.symm.trans hd
  · exact .inl ⟨by omega, by omega, .inl h0⟩
  · exact .inl ⟨by omega, by omega, .inr h0⟩
  · rcases operand1_cases .start bs with ⟨rfl, -⟩ | ⟨b1, rest, -, e'⟩
    · rw [List.length_nil] at hlen
      exact .inr ⟨by omega, h0⟩
    · cases (e.symm.trans hd).symm.trans e'
  · cases e.symm.trans hd

theorem raisesWhen_of_illegal {s : State} {b0 : Byte} (hd : decode s.fetchBytes = .illegal b0) :
    raisesWhen s .unknownOpcode b0.toNat := by
  obtain ⟨hhead, hrow⟩ := decode_illegal _ _ hd
  have hpc : s.pc < 256 := by
    have hpos := List.length_pos_of_mem (List.mem_of_head? hhead)
    rw [State.fetchBytes_length] at hpos
    omega
  obtain rfl : s.readByte s.cur s.pc = b0 := Option.some.inj ((s.fetchBytes_head hpc).symm.trans hhead)
  exact ⟨Nat.le_of_lt_succ hpc, rfl, hrow.imp_right fun h => by omega⟩

theorem raisesWhen_of_reserved {s : State} {i : Instr} (hpc : s.pc ≤ 255) (h0 : s.readByte s.cur s.pc = i.opcode)
    (hres : 0x16 ≤ i.opcode.toNat) : raisesWhen s .unknownOpcode i.opcode.toNat :=
  ⟨hpc, congrArg BitVec.toNat h0.symm, .inr (h0 ▸ hres)⟩

/-- A fetched instruction that ends FAULTED met the condition of the fault it raised. -/
theorem Effect.exists_raisesWhen {s t : State} {i : Instr} {rest : List Byte} (h : Effect s i t) (hinv : s.Inv)
    (hr : s.status = .running) (hd : decode s.fetchBytes = .instr i rest) (ht : t.status = .faulted) :
    ∃ k info, t = s.raise k info ∧ raisesWhen s k info := by
  obtain ⟨hfit, h0⟩ := s.fetched_fits i rest hd
  have hpc : s.pc ≤ 255 := by have := i.length_pos; omega
  cases h with
  | nop | move _ | add _ _ | start _ _ | ret _ _ | skip _ _ => exact absurd (hr.symm.trans ht) nofun
  | retDone _ | halt => cases ht
  | moveBad hreg =>
    obtain ⟨hpc, h0, rfl, -⟩ := s.fetched_move _ _ rest hd
    exact ⟨_, _, rfl, hpc, .inl ⟨.inl h0, (regOfByte_eq_none_iff _).mp hreg, rfl⟩⟩
  | addBadDst hdst =>
    obtain ⟨hpc, h0, rfl, -⟩ := s.fetched_add _ _ rest hd
    exact ⟨_, _, rfl, hpc, .inl ⟨.inr h0, (regOfByte_eq_none_iff _).mp hdst, rfl⟩⟩
  | addBadSrc hdst hsrc =>
    obtain ⟨hpc, h0, rfl, rfl⟩ := s.fetched_add _ _ rest hd
    have hok := (regOfByte_eq_some_toNat hdst s.regs).1
    exact ⟨_, _, rfl, hpc, .inr ⟨h0, by omega, (regOfByte_eq_none_iff _).mp hsrc, rfl⟩⟩
  | startUnknown ho =>
    obtain ⟨hpc, h0, rfl⟩ := s.fetched_start _ rest hd
    exact ⟨_, _, rfl, hpc, h0, ho, rfl⟩
  | startExhausted ho hdepth =>
    obtain ⟨hpc, h0, rfl⟩ := s.fetched_start _ rest hd
    exact ⟨_, _, rfl, hpc, h0, ho, Nat.le_antisymm hinv.depth_le hdepth, rfl⟩
  | skipBad hcur hnone => exact ⟨_, _, rfl, hpc, h0, .inl ⟨hcur, (findRet_eq_none_iff _ _).mp hnone, rfl⟩⟩
  | nested hcur => exact ⟨_, _, rfl, hpc, h0, .inr ⟨_, hcur, rfl⟩⟩
  | run | cid | ld | ldc | out => exact ⟨_, _, rfl, raisesWhen_of_reserved hpc h0 (by simp only [Instr.opcode]; decide)⟩

theorem exists_raisesWhen_of_step_faulted {s t : State} (hinv : s.Inv) (h : step s = .next t)
    (ht : t.status = .faulted) :
    ∃ k info, t = s.raise k info ∧ raisesWhen s k info := by
  obtain ⟨hr, ⟨-, rfl⟩ | ⟨-, ⟨-, hd, rfl⟩ | ⟨b0, hd, rfl⟩ | ⟨i, rest, hd, he⟩⟩⟩ := step_cases s t h
  · cases ht
  · exact ⟨_, _, rfl, raisesWhen_of_missing hinv.pc_le hd⟩
  · exact ⟨_, _, rfl, raisesWhen_of_illegal hd⟩
  · exact he.exists_raisesWhen hinv hr hd ht

/-! ### A condition that is met raises its fault (R130, R132) -/

theorem step_start {s : State} (hr : s.ready) (hpc : s.pc ≤ 254) (h0 : s.readByte s.cur s.pc = opStart) :
    step s = exec (.start (s.readByte s.cur (s.pc + 1))) s := by
  rw [step_operand1 hr (by omega) h0 decode_opStart, if_neg (by omega)]

theorem step_start_outOfBounds {s : State} (hr : s.ready) (hpc : s.pc = 255)
    (h0 : s.readByte s.cur s.pc = opStart) : step s = .next (s.raise .outOfBounds 256) := by
  rw [step_operand1 hr (by omega) h0 decode_opStart, hpc]
  rfl

/-- Each kind's condition excludes the faults checked before it (R132). -/
theorem step_of_raisesWhen {s : State} {k : FaultKind} {info : Nat} (hr : s.ready) (h : raisesWhen s k info) :
    step s = .next (s.raise k info) := by
  cases k with
  | outOfBounds =>
    obtain ⟨rfl, hpc | ⟨h254, hle, h0 | h0⟩ | ⟨hpc, h0⟩⟩ := h
    · exact hpc ▸ step_of_pc_ge hr hpc.ge
    · exact step_operand2_outOfBounds hr (Nat.lt_succ_of_le hle) h0 decode_opMove h254
    · exact step_operand2_outOfBounds hr (Nat.lt_succ_of_le hle) h0 decode_opAdd h254
    · exact step_start_outOfBounds hr hpc h0
  | invalidRegister =>
    obtain ⟨hpc, ⟨h0 | h0, hbad, rfl⟩ | ⟨h0, hdst, hbad, rfl⟩⟩ := h
    · rw [step_operand2_of_pc_lt hr h0 decode_opMove (Nat.lt_succ_of_le hpc), exec_next_iff]
      exact .moveBad ((regOfByte_eq_none_iff _).mpr hbad)
    · rw [step_operand2_of_pc_lt hr h0 decode_opAdd (Nat.lt_succ_of_le hpc), exec_next_iff]
      exact .addBadDst ((regOfByte_eq_none_iff _).mpr hbad)
    · obtain ⟨d, hd⟩ := exists_regOfByte hdst
      rw [step_operand2_of_pc_lt hr h0 decode_opAdd (Nat.lt_succ_of_le hpc), exec_next_iff]
      exact .addBadSrc hd ((regOfByte_eq_none_iff _).mpr hbad)
  | unknownModule =>
    obtain ⟨hpc, h0, ho, rfl⟩ := h
    rw [step_start hr hpc h0, exec_next_iff]
    exact .startUnknown ho
  | duplicateModule => exact h.elim
  | malformedModule =>
    obtain ⟨hpc, h0, hwhere⟩ := h
    rw [step_of_opcode (i := .moduleMark) hr (Nat.lt_succ_of_le hpc) rfl h0, exec_next_iff]
    rcases hwhere with ⟨hcur, hnone, rfl⟩ | ⟨m, hcur, rfl⟩
    · exact .skipBad hcur ((findRet_eq_none_iff _ _).mpr hnone)
    · exact .nested hcur
  | callStackExhausted =>
    obtain ⟨hpc, h0, ho, hdepth, rfl⟩ := h
    rw [step_start hr hpc h0, exec_next_iff]
    exact .startExhausted ho hdepth.ge
  | unknownOpcode =>
    obtain ⟨hpc, rfl, hrow⟩ := h
    exact step_unknownOpcode hr (Nat.lt_succ_of_le hpc) (by omega) (by omega)

/-- Settles O25: one half by what the step did, the other by the kind of the fault. -/
theorem faultConditions : Obligations.FaultConditions := by
  unfold Obligations.FaultConditions
  refine ⟨fun s t k hinv h ht hkind => ?_, fun s k info _ hr h => step_of_raisesWhen hr h⟩
  obtain ⟨k', info, rfl, hraises⟩ := exists_raisesWhen_of_step_faulted hinv h ht
  cases hkind
  exact ⟨hraises, rfl, rfl⟩

/-! ### The host's actions (R150, spec/70_reset_and_hazards.md R160, R171) -/

/-- What the invariant asks of a Module Table. -/
def ModuleTable.Fits (mt : ModuleTable) : Prop := mt.wf = true ∧ ∀ m : Byte, recordFits (mt.slot m) = true

theorem ModuleTable.fits_nil : ModuleTable.Fits [] := ⟨rfl, fun _ => rfl⟩

theorem ModuleTable.Fits.accept {root : Memory} {mt : ModuleTable} {a t : Nat} (h : mt.Fits) (mid : Byte)
    (ht : findRet root (a + 2) = some t) : (acceptDeclaration root mt a mid t).Fits := by
  obtain ⟨hwf, hrec⟩ := h
  obtain ⟨hstart, ht255, -⟩ := (findRet_eq_some_iff _ _ _).mp ht
  refine ⟨wf_acceptDeclaration root mt a mid t ht255 hwf, fun m => ?_⟩
  rw [acceptDeclaration_slot]
  split
  · exact recordFits_iff.mpr ⟨show a + 2 ≤ 256 by omega, (recordFits_iff.mp (hrec mid)).2⟩
  · exact hrec m

theorem load_fits {root : Memory} {mt : ModuleTable} (h : load root = .table mt) : mt.Fits :=
  load_table_induct ModuleTable.fits_nil (fun _ _ _ hP _ _ ht => hP.accept _ ht) h

theorem ScanStop.info_le {root : Memory} {mt : ModuleTable} {f : LoadFault} (h : ScanStop root mt f) :
    f.info ≤ 256 := by
  cases h with
  | noId => exact le_rfl
  | duplicate _ _ | noTerminator _ _ _ => exact (BitVec.isLt _).le

/-- The record of a Loader fault is in range (R41, R164, R165). -/
theorem load_failed_le {root : Memory} {f : LoadFault} (h : load root = .failed f) : f.pc ≤ 256 ∧ f.info ≤ 256 := by
  have hend := load_induct root (fun _ _ => True) trivial (fun _ _ _ _ _ => trivial) fun _ _ _ _ _ _ _ _ => trivial
  rw [h] at hend
  obtain ⟨mt, -, hpc, -, hstop⟩ := hend
  exact ⟨Nat.le_succ_of_le hpc, hstop.info_le⟩

theorem State.Inv.startRun {s : State} {root : Memory} {mt : ModuleTable} (h : s.Inv) (hroot : root.wf = true)
    (hmt : mt.Fits) : (s.startRun root mt).Inv :=
  ⟨Nat.zero_le _, rfl, Nat.zero_le _, h.maxDepth_pos, rfl, hroot, hmt.1, hmt.2⟩

theorem State.Inv.loadFailed {s : State} {root : Memory} {f : LoadFault} (h : s.Inv) (hroot : root.wf = true)
    (hpc : f.pc ≤ 256) (hinfo : f.info ≤ 256) : (s.loadFailed root f).Inv :=
  ⟨h.pc_le, h.stack, h.depth_le, h.maxDepth_pos, faultFits_faulted hpc hinfo, hroot, rfl, fun _ => rfl⟩

theorem loadImage_inv {s t : State} {bytes : List Byte} (h : s.Inv) (hload : s.loadImage bytes = .next t) :
    t.Inv := by
  obtain ⟨-, hlen, hcases⟩ := State.loadImage_cases s t bytes hload
  have hroot := Memory.wf_ofBytesAt bytes hlen.le
  rcases hcases with ⟨mt, hmt, rfl⟩ | ⟨f, hf, rfl⟩
  · exact h.startRun hroot (load_fits hmt)
  · obtain ⟨hpc, hinfo⟩ := load_failed_le hf
    exact h.loadFailed hroot hpc hinfo

/-- A Run is some number of engine steps. -/
theorem State.exists_after_of_runFor {n : Nat} {s t : State} (h : s.runFor n = .next t) :
    ∃ k, s.after k = some t := by
  induction n generalizing s with
  | zero => cases h; exact ⟨0, rfl⟩
  | succ n ih =>
    rw [State.runFor] at h
    split at h
    · cases hst : step s with
      | next u =>
        rw [hst] at h
        obtain ⟨k, hk⟩ := ih h
        exact ⟨k + 1, State.after_succ_iff.mpr ⟨u, hst, hk⟩⟩
      | fault r => rw [hst] at h; cases h
      | refused r => rw [hst] at h; cases h
    · cases h; exact ⟨0, rfl⟩

theorem runFor_inv {n : Nat} {s t : State} (h : s.Inv) (hrun : s.runFor n = .next t) : t.Inv := by
  obtain ⟨k, hk⟩ := State.exists_after_of_runFor hrun
  exact State.after_induct (fun _ _ => step_inv) h hk

/-- Settles O41: Reset by the reset state, the load by the Loader's two results, Run step by step. -/
theorem invariantKeptByHost : Obligations.InvariantKeptByHost := by
  unfold Obligations.InvariantKeptByHost
  intro a s t hinv h
  cases a with
  | reset => cases h; exact State.inv_resetWith hinv.maxDepth_pos
  | loadImage bytes => exact loadImage_inv hinv h
  | run =>
    simp only [hostAction] at h
    split at h
    · exact runFor_inv hinv h
    · cases h

end Sys2Proof.Machine

/-! PROOF. The family spec/70_reset_and_hazards.md: the Loader against the relation `Scanned`, tier 3 first; the host's
LoadImage and Reset; and the source's Loader example. -/

namespace Sys2Proof.Machine

open Sys2Proof

/-! ### The scan as a path (R166)

`Scanned` lists the addresses one turn of the Loader's loop after another. A turn is a partial function, so these
addresses lie on one path: between an address and the next none is scanned. -/

/-- One turn of the Loader's loop that faults nothing: from one scanned address to the next. -/
inductive ScanTurn (root : Memory) : Nat → Nat → Prop where
  | skip {a : Nat} (ha : a ≤ 255) (hop : root.get a ≠ opModule) : ScanTurn root a (a + 1)
  | past {a t : Nat} (ha : a ≤ 254) (hop : root.get a = opModule) (ht : findRet root (a + 2) = some t) :
      ScanTurn root a (t + 1)

theorem ScanTurn.lt {root : Memory} {a c : Nat} (h : ScanTurn root a c) : a < c := by
  cases h with
  | skip _ _ => exact Nat.lt_succ_self a
  | past _ _ ht =>
    have := ((findRet_eq_some_iff _ _ _).mp ht).1
    omega

theorem ScanTurn.rightUnique (root : Memory) : Relator.RightUnique (ScanTurn root) := by
  rintro a b c (⟨_, hop⟩ | ⟨_, hop, ht⟩) (⟨_, hop'⟩ | ⟨_, hop', ht'⟩)
  · rfl
  · exact absurd hop' hop
  · exact absurd hop hop'
  · rw [Option.some.inj (ht.symm.trans ht')]

theorem ScanTurn.scanned {root : Memory} {a c : Nat} (h : ScanTurn root a c) (ha : Scanned root a) :
    Scanned root c := by
  cases h with
  | skip hle hop => exact ha.skip hle hop
  | past hle hop ht =>
    obtain ⟨hstart, ht255, hret, hbefore⟩ := (findRet_eq_some_iff _ _ _).mp ht
    exact ha.past hle hop hstart ht255 hret hbefore

theorem Scanned.reflTransGen {root : Memory} {a : Nat} (h : Scanned root a) :
    Relation.ReflTransGen (ScanTurn root) 0 a := by
  induction h with
  | start => exact .refl
  | skip _ ha hop ih => exact ih.tail (.skip ha hop)
  | past _ ha hop hstart ht255 hret hbefore ih =>
    exact ih.tail (.past ha hop ((findRet_eq_some_iff _ _ _).mpr ⟨hstart, ht255, hret, hbefore⟩))

theorem ScanTurn.path_le {root : Memory} {a b : Nat} (h : Relation.ReflTransGen (ScanTurn root) a b) : a ≤ b := by
  induction h with
  | refl => exact le_rfl
  | tail _ hturn ih => exact ih.trans hturn.lt.le

/-- A scanned address below another has a turn, and the turn does not go past the other. -/
theorem Scanned.exists_turn {root : Memory} {a b : Nat} (ha : Scanned root a) (hb : Scanned root b) (hlt : a < b) :
    ∃ c, ScanTurn root a c ∧ c ≤ b := by
  rcases ha.reflTransGen.total_of_right_unique (ScanTurn.rightUnique root) hb.reflTransGen with hpath | hpath
  · rcases hpath.cases_head with rfl | ⟨c, hc, hcb⟩
    · exact absurd hlt (lt_irrefl a)
    · exact ⟨c, hc, ScanTurn.path_le hcb⟩
  · exact absurd hlt (ScanTurn.path_le hpath).not_gt

/-- A turn adds its own address, and no other, to the scanned addresses behind it. -/
theorem ScanTurn.lt_iff {root : Memory} {a c b : Nat} (h : ScanTurn root a c) (ha : Scanned root a)
    (hb : Scanned root b) : b < c ↔ b < a ∨ b = a := by
  refine ⟨fun hbc => ?_, fun hba => (le_iff_lt_or_eq.mpr hba).trans_lt h.lt⟩
  by_contra hne
  obtain ⟨c', hc', hle⟩ := ha.exists_turn hb (by omega)
  rw [ScanTurn.rightUnique root hc' h] at hle
  omega

/-! ### What the Loader has done when its scan stands at an address (R163 to R166) -/

/-- The scan stands at the scanned address `a`, and the table is that of the declarations before `a`: each slot is empty
or loaded, and a slot is loaded from the declaration at `b` exactly when its id is declared there, before `a`. -/
structure ScanInv (root : Memory) (a : Nat) (mt : ModuleTable) : Prop where
  scanned : Scanned root a
  loaded : mt.LoadedFrom root State.reset
  declared_iff : ∀ (m : Byte) (b : Nat),
    ((mt.slot m).occupied = true ∧ (mt.slot m).bodyStart = b + 2) ↔ b < a ∧ DeclaredAt root b m

section
variable {root : Memory} {a : Nat} {mt : ModuleTable}

/-- Every occupied slot has its declaration. -/
theorem ScanInv.occupied_iff (h : ScanInv root a mt) (m : Byte) :
    (mt.slot m).occupied = true ↔ ∃ b, b < a ∧ DeclaredAt root b m := by
  refine ⟨fun hocc => ?_, fun ⟨b, hb⟩ => ((h.declared_iff m b).mpr hb).1⟩
  obtain ⟨t, hslot⟩ := h.loaded.2 m hocc
  exact ⟨_, (h.declared_iff m _).mp ⟨hocc, (Nat.sub_add_cancel hslot.start_ge).symm⟩⟩

/-- No id is declared twice before `a`. -/
theorem ScanInv.declaredAt_unique (h : ScanInv root a mt) {b c : Nat} {m : Byte} (hb : b < a) (hc : c < a)
    (hdb : DeclaredAt root b m) (hdc : DeclaredAt root c m) : b = c := by
  have hb' := ((h.declared_iff m b).mpr ⟨hb, hdb⟩).2
  have hc' := ((h.declared_iff m c).mpr ⟨hc, hdc⟩).2
  omega

theorem ScanInv.start : ScanInv root 0 [] where
  scanned := .start
  loaded := ⟨fun _ _ => rfl, fun _ hm => nomatch hm⟩
  declared_iff := fun _ _ => ⟨fun h => absurd h.1 Bool.false_ne_true, fun h => absurd h.1 (Nat.not_lt_zero _)⟩

theorem ScanInv.skip (h : ScanInv root a mt) (ha : a ≤ 255) (hop : root.get a ≠ opModule) :
    ScanInv root (a + 1) mt where
  scanned := h.scanned.skip ha hop
  loaded := h.loaded
  declared_iff := fun m b => (h.declared_iff m b).trans <| and_congr_left fun hd => by
    obtain ⟨-, -, hopb, -⟩ := hd
    have hne : b ≠ a := fun hba => hop (hba ▸ hopb)
    omega

theorem ScanInv.accept (h : ScanInv root a mt) {t : Nat} (ha : a ≤ 254) (hop : root.get a = opModule)
    (hfree : (mt.slot (root.get (a + 1))).occupied = false) (ht : findRet root (a + 2) = some t) :
    ScanInv root (t + 1) (acceptDeclaration root mt a (root.get (a + 1)) t) where
  scanned := (ScanTurn.past ha hop ht).scanned h.scanned
  loaded := h.loaded.accept hop hfree ht
  declared_iff := fun m b => by
    have hnew : DeclaredAt root a (root.get (a + 1)) := ⟨h.scanned, ha, hop, rfl⟩
    have hsplit : b < t + 1 ∧ DeclaredAt root b m ↔ (b < a ∨ b = a) ∧ DeclaredAt root b m :=
      and_congr_left fun hd => (ScanTurn.past ha hop ht).lt_iff h.scanned hd.1
    rw [hsplit, acceptDeclaration_slot]
    split <;> rename_i hm
    · subst hm
      have hold : ¬ (b < a ∧ DeclaredAt root b (root.get (a + 1))) := fun hd =>
        Bool.false_ne_true (hfree.symm.trans ((h.occupied_iff _).mpr ⟨b, hd⟩))
      constructor
      · rintro ⟨-, hstart⟩
        obtain rfl : a = b := by simpa using hstart
        exact ⟨.inr rfl, hnew⟩
      · rintro ⟨hlt | rfl, hd⟩
        · exact absurd ⟨hlt, hd⟩ hold
        · exact ⟨rfl, rfl⟩
    · rw [h.declared_iff m b]
      have hne : DeclaredAt root b m → b ≠ a := by
        rintro ⟨-, -, -, rfl⟩ rfl
        exact hm rfl
      exact and_congr_left fun hd => (or_iff_left (hne hd)).symm

end

/-- The scan of any image ends with the invariant. -/
theorem load_scanInv (root : Memory) : ScanEnds root (ScanInv root) (load root) :=
  load_induct root (ScanInv root) .start (fun _ _ h => h.skip) fun _ _ _ h => h.accept

theorem load_table_scanInv {root : Memory} {mt : ModuleTable} (h : load root = .table mt) :
    ∃ a, 256 ≤ a ∧ ScanInv root a mt := by
  have hend := load_scanInv root
  rwa [h] at hend

theorem load_failed_scanInv {root : Memory} {f : LoadFault} (h : load root = .failed f) :
    ∃ mt, ScanInv root f.pc mt ∧ f.pc ≤ 255 ∧ root.get f.pc = opModule ∧ ScanStop root mt f := by
  have hend := load_scanInv root
  rwa [h] at hend

/-- A MODULE byte at 255 has no turn: a scan that goes on past 255 did not stand there. -/
theorem Scanned.not_missing_id {root : Memory} {a : Nat} (h : Scanned root a) (ha : 256 ≤ a) :
    ¬ (Scanned root 255 ∧ root.get 255 = opModule) := by
  rintro ⟨h255, hop⟩
  obtain ⟨c, hturn, -⟩ := h255.exists_turn h ha
  cases hturn with
  | skip _ hne => exact hne hop
  | past hle _ _ => exact absurd hle (by decide)

/-- PRIV[m] of a loaded slot, as one equation (R55, D11). -/
theorem State.SlotLoaded.get_privateMemory {s : State} {m : Byte} {t : Nat} (h : s.SlotLoaded m t) (x : Nat) :
    (s.slot m).privateMemory.get x =
      if (s.slot m).bodyStart ≤ x ∧ x ≤ t then s.root.get x else 0x00#8 := by
  split <;> rename_i hx
  · exact h.copied x hx.1 hx.2
  · exact h.zero_else x (by omega)

/-- Settles O35: the invariant of the scan, read where the scan ends. -/
theorem loaderMeetsScan : Obligations.LoaderMeetsScan := by
  unfold Obligations.LoaderMeetsScan
  refine ⟨fun root mt hload => ?_, fun root f hload => ?_⟩
  · obtain ⟨e, he, hinv⟩ := load_table_scanInv hload
    have hlt {a : Nat} {m : Byte} (hd : DeclaredAt root a m) : a < e := by
      obtain ⟨-, hle, -⟩ := hd
      omega
    refine ⟨hinv.scanned.not_missing_id he, fun m => ?_, hinv.loaded.1, fun m a hd => ?_⟩
    · exact (hinv.occupied_iff m).trans (exists_congr fun a => and_iff_right_of_imp hlt)
    · obtain ⟨hocc, hstart⟩ := (hinv.declared_iff m a).mpr ⟨hlt hd, hd⟩
      obtain ⟨t, hslot⟩ := hinv.loaded.2 m hocc
      obtain ⟨hle, ht255, hret, hbefore⟩ := (findRet_eq_some_iff _ _ _).mp hslot.findRet_eq
      have hpriv := hslot.get_privateMemory
      simp only [State.startRun_slot, State.startRun_root, hstart] at hle hret hbefore hpriv
      exact ⟨hslot.id_eq, hstart, t, hle, ht255, hret, hbefore, hpriv⟩
  · obtain ⟨mt, hinv, hpc, hop, hstop⟩ := load_failed_scanInv hload
    refine ⟨hinv.scanned, hpc, hop, fun a b m => hinv.declaredAt_unique, ?_⟩
    cases hstop with
    | noId => exact .inl ⟨rfl, rfl, rfl⟩
    | duplicate ha hocc => exact .inr ⟨ha, rfl, .inl ⟨rfl, (hinv.occupied_iff _).mp hocc⟩⟩
    | noTerminator ha hfree hnone =>
      have hnew := (hinv.occupied_iff _).not.mp (Bool.eq_false_iff.mp hfree)
      exact .inr ⟨ha, rfl, .inr ⟨rfl, hnew, (findRet_eq_none_iff _ _).mp hnone⟩⟩

/-! ### LoadImage and Reset (R160, R161, R167, R171) -/

theorem Memory.get_ofBytesAt_zero (bytes : List Byte) (a : Nat) :
    (Memory.ofBytesAt 0 bytes).get a = bytes.getD a 0x00#8 :=
  (Memory.get_ofBytesAt bytes 0 a).trans (if_pos (Nat.zero_le a))

/-- ROOT after the copy: every byte of the image at its own address. -/
theorem Memory.get_image {bytes : List Byte} {a : Nat} (h : a < bytes.length) :
    (Memory.ofBytesAt 0 bytes).get a = bytes[a] := by
  rw [Memory.get_ofBytesAt_zero, List.getD_eq_getElem _ _ h]

theorem State.loadImage_of_not_idle {s : State} (h : s.status ≠ .idle) (bytes : List Byte) :
    s.loadImage bytes = .refused .loadNotIdle := if_pos h

theorem State.loadImage_of_length_ne {s : State} {bytes : List Byte} (h : s.status = .idle)
    (hlen : bytes.length ≠ 256) : s.loadImage bytes = .refused .imageLength :=
  (if_neg (not_not.mpr h)).trans (if_pos hlen)

/-- Settles O33: the two refusals, and the Loader's two results for an image that is taken. -/
theorem loadImageStartsRun : Obligations.LoadImageStartsRun := by
  unfold Obligations.LoadImageStartsRun
  intro s bytes
  refine ⟨fun hs => State.loadImage_of_not_idle hs bytes, State.loadImage_of_length_ne, fun hs hlen => ?_⟩
  have hwf := Memory.wf_ofBytesAt bytes hlen.le
  cases hload : load (Memory.ofBytesAt 0 bytes) with
  | table mt =>
    exact ⟨_, s.loadImage_table bytes mt hs hlen hload, fun _ => Memory.get_image, hwf, .inl rfl,
      fun _ => ⟨hload, rfl, rfl, rfl, rfl, rfl, rfl, rfl⟩, nofun⟩
  | failed f =>
    exact ⟨_, s.loadImage_failed bytes f hs hlen hload, fun _ => Memory.get_image, hwf, .inr rfl, nofun,
      fun _ => ⟨f, hload⟩⟩

/-- Settles O34: the state is the one LoadImage leaves where the Loader fails, and it is not RUNNING. -/
theorem loaderFaultOutcome : Obligations.LoaderFaultOutcome := by
  unfold Obligations.LoaderFaultOutcome
  intro s bytes f hs hlen hload
  refine ⟨_, s.loadImage_failed bytes f hs hlen hload, rfl, rfl, fun _ => rfl, fun _ => Memory.get_image,
    rfl, rfl, rfl, rfl, rfl, rfl, fun u hu => ?_⟩
  cases (step_kind hu).1

/-- After Reset every cell of every space reads 0x00. -/
@[simp] theorem State.resetWith_readByte (p : Params) (c : Ctx) (a : Nat) :
    (State.resetWith p).readByte c a = 0x00#8 := by
  cases c <;> rfl

/-- Settles O31: each field of the reset state holds R45's value, and a terminal status is left as O32 says. -/
theorem resetPutsEveryValue : Obligations.ResetPutsEveryValue := by
  unfold Obligations.ResetPutsEveryValue
  intro s
  obtain ⟨-, -, -, -, -, -, -, hfinal⟩ := terminalStatusesAreFinal
  exact ⟨State.resetWith s.params, rfl, rfl, rfl, rfl, State.resetWith_readByte s.params,
    fun _ => ⟨rfl, rfl, rfl, rfl, rfl, rfl, rfl⟩, rfl, rfl, rfl, rfl, rfl, rfl, hfinal s⟩

/-! ### The source's example (R170), from the Loader's relation -/

section
variable {root : Memory} {t : Nat}

/-- With a declaration at 0 and no MODULE byte after its terminator, the scan meets no other MODULE byte. -/
theorem Scanned.eq_zero_of_one_declaration {b : Nat} (hb : Scanned root b) (hopb : root.get b = opModule)
    (hop : root.get 0 = opModule) (ht : findRet root 2 = some t) (hrest : ∀ x, t < x → root.get x ≠ opModule) :
    b = 0 := by
  have hturn : ScanTurn root 0 (t + 1) := .past (Nat.zero_le _) hop ht
  have hlt : b < t + 1 := by
    by_contra hge
    exact hrest b (by omega) hopb
  exact ((hturn.lt_iff .start hb).mp hlt).resolve_left (Nat.not_lt_zero b)

theorem declaredAt_iff_of_one_declaration (hop : root.get 0 = opModule) (ht : findRet root 2 = some t)
    (hrest : ∀ x, t < x → root.get x ≠ opModule) (b : Nat) (m : Byte) :
    DeclaredAt root b m ↔ b = 0 ∧ m = root.get 1 := by
  constructor
  · rintro ⟨hb, -, hopb, rfl⟩
    obtain rfl := hb.eq_zero_of_one_declaration hopb hop ht hrest
    exact ⟨rfl, rfl⟩
  · rintro ⟨rfl, rfl⟩
    exact ⟨.start, Nat.zero_le _, hop, rfl⟩

/-- Such an image is loaded: a fault could only be at 0, where there is an id and a terminator and no slot is filled. -/
theorem exists_table_of_one_declaration (hop : root.get 0 = opModule) (ht : findRet root 2 = some t)
    (hrest : ∀ x, t < x → root.get x ≠ opModule) : ∃ mt, load root = .table mt := by
  cases hload : load root with
  | table mt => exact ⟨mt, rfl⟩
  | failed f =>
    obtain ⟨mt, hinv, -, hopf, hstop⟩ := load_failed_scanInv hload
    have hpc : f.pc = 0 := hinv.scanned.eq_zero_of_one_declaration hopf hop ht hrest
    cases hstop with
    | noId => cases hpc
    | duplicate ha hocc =>
      cases hpc
      obtain ⟨b, hb, -⟩ := (hinv.occupied_iff _).mp hocc
      exact absurd hb (Nat.not_lt_zero b)
    | noTerminator ha hfree hnone =>
      cases hpc
      cases ht.symm.trans hnone

end

/-- The bytes of R170. -/
def exampleBytes : List Byte :=
  [0x15#8, 0x01#8, 0x10#8, 0x01#8, 0x04#8, 0x10#8, 0x02#8, 0x09#8, 0x11#8, 0x01#8, 0x02#8, 0x13#8]

/-- The image of R170. -/
def exampleImage : List Byte := exampleBytes ++ List.replicate 244 0x00#8

theorem exampleImage_get_lt {x : Nat} (h : x < 12) :
    (Memory.ofBytesAt 0 exampleImage).get x = exampleBytes.getD x 0x00#8 := by
  rw [Memory.get_ofBytesAt_zero, exampleImage, List.getD_append _ _ _ _ h]

theorem exampleImage_get_ge {x : Nat} (h : 12 ≤ x) : (Memory.ofBytesAt 0 exampleImage).get x = 0x00#8 := by
  rw [Memory.get_ofBytesAt_zero, exampleImage, List.getD_append_right _ _ _ _ h,
    List.getD_eq_getElem?_getD, List.getElem?_getD_replicate_default_eq]

theorem exampleImage_opModule : (Memory.ofBytesAt 0 exampleImage).get 0 = opModule := exampleImage_get_lt (by decide)

theorem exampleImage_id : (Memory.ofBytesAt 0 exampleImage).get 1 = 0x01#8 := exampleImage_get_lt (by decide)

theorem exampleImage_length : exampleImage.length = 256 := by
  rw [exampleImage, List.length_append, List.length_replicate]
  rfl

theorem exampleImage_findRet : findRet (Memory.ofBytesAt 0 exampleImage) 2 = some 11 := by
  refine (findRet_eq_some_iff _ _ _).mpr ⟨by decide, by decide, exampleImage_get_lt (by decide), fun x hx hlt => ?_⟩
  rw [exampleImage_get_lt (by omega)]
  exact (by decide : ∀ x < 11, 2 ≤ x → exampleBytes.getD x 0x00#8 ≠ opRet) x hlt hx

theorem exampleImage_rest (x : Nat) (hx : 11 < x) : (Memory.ofBytesAt 0 exampleImage).get x ≠ opModule := by
  rw [exampleImage_get_ge hx]
  decide

/-- Settles O37: the image has one declaration, at 0, and the Loader meets its relation (O35). -/
theorem loaderExample : Obligations.LoaderExample := by
  unfold Obligations.LoaderExample
  intro image
  obtain ⟨mt, hload⟩ := exists_table_of_one_declaration exampleImage_opModule exampleImage_findRet exampleImage_rest
  have hdecl := declaredAt_iff_of_one_declaration exampleImage_opModule exampleImage_findRet exampleImage_rest
  obtain ⟨-, hocc, -, hslot⟩ := loaderMeetsScan.1 _ mt hload
  obtain ⟨-, hstart, t, hle, ht255, hret, hbefore, hpriv⟩ :=
    hslot 1#8 0 ((hdecl _ _).mpr ⟨rfl, exampleImage_id.symm⟩)
  obtain rfl : 11 = t := Option.some.inj
    (exampleImage_findRet.symm.trans ((findRet_eq_some_iff _ _ _).mpr ⟨hle, ht255, hret, hbefore⟩))
  refine ⟨_, State.reset.loadImage_table exampleImage mt rfl exampleImage_length hload, rfl,
    (hocc _).mpr ⟨0, (hdecl _ _).mpr ⟨rfl, exampleImage_id.symm⟩⟩, hstart, fun a => ?_, fun m hm => ?_⟩
  · exact (hpriv a).trans (by rw [Memory.get_ofBytesAt_zero]; rfl)
  · refine Bool.eq_false_iff.mpr fun h => hm ?_
    obtain ⟨b, hb⟩ := (hocc m).mp h
    exact ((hdecl b m).mp hb).2.trans exampleImage_id

end Sys2Proof.Machine

/-! PROOF. The family other: RET in a module context with no frame to return to, the stop of log entry 3. -/

namespace Sys2Proof.Machine

open Sys2Proof

theorem exec_ret_of_no_frame {s : State} {m : Byte} (hmod : s.cur = .mod m) (hcs : s.cs = []) :
    exec .ret s = .fault .callStackEmpty := by
  change execRet s = _
  simp only [execRet, hmod, hcs]

/-- Settles O17: with no frame RET stops, and with one it has a next state (`exec_progress`). -/
theorem retWithoutFrameStops : Obligations.RetWithoutFrameStops := by
  unfold Obligations.RetWithoutFrameStops
  intro s m hmod
  refine ⟨exec_ret_of_no_frame hmod, fun hstop => ?_⟩
  by_contra hcs
  obtain ⟨t, ht⟩ := exec_progress (fun _ => hcs) .ret
  exact nomatch hstop.symm.trans ht

end Sys2Proof.Machine
